-- ==== Sys2Proof/Word.lean ====
section
/-! DEFINITION. The machine word and the readings of it that 00_scope.md rules R13 and R14 give. -/

namespace Sys2Proof

/-- Register values, PC values, addresses and instruction words are 32-bit vectors (R13). -/
abbrev Word := BitVec 32

/-- A general register's number: "Every 5-bit field value names a register" (R31). -/
abbrev Reg := Fin 32

/-- `uval(v)`: the value as an unsigned integer (R13). -/
def Word.uval (v : Word) : Int := (v.toNat : Int)

/-- `sval(v)`: the two's-complement value (R13): `uval(v)` if bit 31 is 0, else `uval(v) - 2^32`. -/
def Word.sval (v : Word) : Int :=
  if v.getLsbD 31 then (v.toNat : Int) - 2 ^ 32 else (v.toNat : Int)

/-- `(e) mod 2^32`, taken as a 32-bit vector (R13). -/
def Word.wrap (e : Int) : Word := BitVec.ofInt 32 e

end Sys2Proof
end

