-- ==== Sys2Proof/Syntax.lean ====
section
/-! DEFINITION. The instructions: one constructor for each of the 13 rows of spec/opcode_table.json. -/

namespace Sys2Proof

/-- A decoded instruction (30_encoding.md R114), its operands in the order of R114. An immediate is the
signed integer that `sext_N` returns (R14); which integers a format can hold is `Instr.wellFormed`.
A word that selects none of the 13 is no instruction: the decoder answers `Decoded.unsupported`. -/
inductive Instr where
  /-- R201: add with wrap-around. -/
  | add (rd rs1 rs2 : Reg)
  /-- R202: subtract with wrap-around. -/
  | sub (rd rs1 rs2 : Reg)
  /-- R203: set if less than, signed. -/
  | slt (rd rs1 rs2 : Reg)
  /-- R204: logical shift right. -/
  | srl (rd rs1 rs2 : Reg)
  /-- R205: bitwise OR. -/
  | or (rd rs1 rs2 : Reg)
  /-- R206: bitwise AND. -/
  | and (rd rs1 rs2 : Reg)
  /-- R220: add immediate with wrap-around. -/
  | addi (rd rs1 : Reg) (imm : Int)
  /-- R221: load word. -/
  | lw (rd rs1 : Reg) (imm : Int)
  /-- R222: jump and link register. -/
  | jalr (rd rs1 : Reg) (imm : Int)
  /-- R240: branch if equal. -/
  | beq (rs1 rs2 : Reg) (imm : Int)
  /-- R241: branch if not equal. -/
  | bne (rs1 rs2 : Reg) (imm : Int)
  /-- R242: branch if less than, signed. -/
  | blt (rs1 rs2 : Reg) (imm : Int)
  /-- R260: jump and link. -/
  | jal (rd : Reg) (imm : Int)
deriving DecidableEq, Repr

end Sys2Proof
end

