-- ==== Sys2Proof/WellFormed.lean ====
section
/-! DEFINITION. Which instructions an encoding can hold. Register fields need no check: every 5-bit value
names a register (R31), and `Reg` holds no other. -/

namespace Sys2Proof

/-- The I immediate: "range -2048 .. 2047" (R108). -/
def immIOk (imm : Int) : Bool := decide (-2048 ≤ imm ∧ imm ≤ 2047)

/-- The B immediate: "even, range -4096 .. 4094" (R109). -/
def immBOk (imm : Int) : Bool := decide (-4096 ≤ imm ∧ imm ≤ 4094 ∧ imm % 2 = 0)

/-- The J immediate: "even, range -1048576 .. 1048574" (R110). -/
def immJOk (imm : Int) : Bool := decide (-1048576 ≤ imm ∧ imm ≤ 1048574 ∧ imm % 2 = 0)

/-- Every immediate lies in the range of its format; every value in it is legal (R118). -/
def Instr.wellFormed (i : Instr) : Bool :=
  match i with
  | .add _ _ _ => true
  | .sub _ _ _ => true
  | .slt _ _ _ => true
  | .srl _ _ _ => true
  | .or _ _ _ => true
  | .and _ _ _ => true
  | .addi _ _ imm => immIOk imm
  | .lw _ _ imm => immIOk imm
  | .jalr _ _ imm => immIOk imm
  | .beq _ _ imm => immBOk imm
  | .bne _ _ imm => immBOk imm
  | .blt _ _ imm => immBOk imm
  | .jal _ imm => immJOk imm

end Sys2Proof
end

