-- ==== Sys2Proof/Decode.lean ====
section
/-! DEFINITION. The BitField Codec, the four format decoders, the two-level dispatch and the encoder
(30_encoding.md). The numeric encoding values are PRESUMED: the spec takes them from RV32I (D1; unsafe, log 1). -/

namespace Sys2Proof

/-! ## BitField Codec -/

/-- R101: "masks and shifts `width` bits starting at `lowBit`". -/
def extractField (w : Word) (lowBit width : Nat) : Nat :=
  (w.toNat >>> lowBit) &&& (2 ^ width - 1)

/-- R102: "if bit `width-1` of `value` is set, subtract `2^width`; otherwise return `value` unchanged". -/
def signExtend (value width : Nat) : Int :=
  if value.testBit (width - 1) then (value : Int) - 2 ^ width else (value : Int)

/-! ## Fields (R103) -/

def opcodeOf (w : Word) : Nat := extractField w 0 7
def funct3Of (w : Word) : Nat := extractField w 12 3
def funct7Of (w : Word) : Nat := extractField w 25 7

/-- A 5-bit field as a register number: always in range (R31). -/
def regField (w : Word) (lowBit : Nat) : Reg := Fin.ofNat 32 (extractField w lowBit 5)

def rdOf (w : Word) : Reg := regField w 7
def rs1Of (w : Word) : Reg := regField w 15
def rs2Of (w : Word) : Reg := regField w 20

/-! ## Immediates -/

/-- R108: `sext_12(w[31:20])`. -/
def immI (w : Word) : Int := signExtend (extractField w 20 12) 12

/-- R109: `sext_13(w[31] ++ w[7] ++ w[30:25] ++ w[11:8] ++ 0b0)`. -/
def immB (w : Word) : Int :=
  signExtend
    (extractField w 31 1 * 2 ^ 12 + extractField w 7 1 * 2 ^ 11
      + extractField w 25 6 * 2 ^ 5 + extractField w 8 4 * 2) 13

/-- R110: `sext_21(w[31] ++ w[19:12] ++ w[20] ++ w[30:21] ++ 0b0)`. -/
def immJ (w : Word) : Int :=
  signExtend
    (extractField w 31 1 * 2 ^ 20 + extractField w 12 8 * 2 ^ 12
      + extractField w 20 1 * 2 ^ 11 + extractField w 21 10 * 2) 21

/-! ## Opcode classes (R112) and function selects (R113) -/

def opRegReg : Nat := 0x33
def opRegImm : Nat := 0x13
def opLoad : Nat := 0x03
def opJalr : Nat := 0x67
def opBranch : Nat := 0x63
def opJal : Nat := 0x6F

def f7Base : Nat := 0b0000000
def f7Sub : Nat := 0b0100000

def f3AddSub : Nat := 0b000
def f3Slt : Nat := 0b010
def f3Srl : Nat := 0b101
def f3Or : Nat := 0b110
def f3And : Nat := 0b111
def f3Addi : Nat := 0b000
def f3Lw : Nat := 0b010
def f3Jalr : Nat := 0b000
def f3Beq : Nat := 0b000
def f3Bne : Nat := 0b001
def f3Blt : Nat := 0b100

/-! ## Dispatch -/

/-- R114: what the decoder answers for a word: one of the 13 instructions, or the word itself, unsupported. -/
inductive Decoded where
  /-- The word selects an instruction of R113. -/
  | instr (i : Instr)
  /-- The word matches no row of R113 (R115): UnsupportedInstruction. -/
  | unsupported (w : Word)
deriving DecidableEq, Repr

/-- The register-register class: funct3 and, in full, funct7 (R113, D2; log 2). -/
def decodeRegReg (w : Word) : Decoded :=
  if funct7Of w = f7Base then
    if funct3Of w = f3AddSub then .instr (.add (rdOf w) (rs1Of w) (rs2Of w))
    else if funct3Of w = f3Slt then .instr (.slt (rdOf w) (rs1Of w) (rs2Of w))
    else if funct3Of w = f3Srl then .instr (.srl (rdOf w) (rs1Of w) (rs2Of w))
    else if funct3Of w = f3Or then .instr (.or (rdOf w) (rs1Of w) (rs2Of w))
    else if funct3Of w = f3And then .instr (.and (rdOf w) (rs1Of w) (rs2Of w))
    else .unsupported w
  else if funct7Of w = f7Sub ∧ funct3Of w = f3AddSub then
    .instr (.sub (rdOf w) (rs1Of w) (rs2Of w))
  else .unsupported w

/-- The register-immediate class (R113, D3). -/
def decodeRegImm (w : Word) : Decoded :=
  if funct3Of w = f3Addi then .instr (.addi (rdOf w) (rs1Of w) (immI w)) else .unsupported w

/-- The load class (R113, D3). -/
def decodeLoad (w : Word) : Decoded :=
  if funct3Of w = f3Lw then .instr (.lw (rdOf w) (rs1Of w) (immI w)) else .unsupported w

/-- The indirect-jump class (R113, D3). -/
def decodeJalr (w : Word) : Decoded :=
  if funct3Of w = f3Jalr then .instr (.jalr (rdOf w) (rs1Of w) (immI w)) else .unsupported w

/-- The conditional-branch class (R113, D3). -/
def decodeBranch (w : Word) : Decoded :=
  if funct3Of w = f3Beq then .instr (.beq (rs1Of w) (rs2Of w) (immB w))
  else if funct3Of w = f3Bne then .instr (.bne (rs1Of w) (rs2Of w) (immB w))
  else if funct3Of w = f3Blt then .instr (.blt (rs1Of w) (rs2Of w) (immB w))
  else .unsupported w

/-- The unconditional-jump class: the opcode alone selects `jal` (R113, R118). -/
def decodeJal (w : Word) : Decoded := .instr (.jal (rdOf w) (immJ w))

/-- R112, R113, R114: the decoder, total on every word (R111). Every word that selects no instruction is
unsupported (R115, R117). -/
def decode (w : Word) : Decoded :=
  if opcodeOf w = opRegReg then decodeRegReg w
  else if opcodeOf w = opRegImm then decodeRegImm w
  else if opcodeOf w = opLoad then decodeLoad w
  else if opcodeOf w = opJalr then decodeJalr w
  else if opcodeOf w = opBranch then decodeBranch w
  else if opcodeOf w = opJal then decodeJal w
  else .unsupported w

/-! ## Encoder, from the same format table (R103) -/

/-- Bits `hi:lo` of a number, as an unsigned number. -/
def bitsOf (v hi lo : Nat) : Nat := v / 2 ^ lo % 2 ^ (hi + 1 - lo)

/-- The `width`-bit two's-complement pattern of an immediate. -/
def immPattern (width : Nat) (imm : Int) : Nat := (imm % 2 ^ width).toNat

/-- R format: funct7, rs2, rs1, funct3, rd, opcode. -/
def encodeR (funct7 funct3 opcode : Nat) (rd rs1 rs2 : Reg) : Word :=
  BitVec.ofNat 32
    (funct7 * 2 ^ 25 + rs2.val * 2 ^ 20 + rs1.val * 2 ^ 15 + funct3 * 2 ^ 12 + rd.val * 2 ^ 7 + opcode)

/-- I format: imm[11:0], rs1, funct3, rd, opcode. -/
def encodeI (funct3 opcode : Nat) (rd rs1 : Reg) (imm : Int) : Word :=
  BitVec.ofNat 32
    (immPattern 12 imm * 2 ^ 20 + rs1.val * 2 ^ 15 + funct3 * 2 ^ 12 + rd.val * 2 ^ 7 + opcode)

/-- B format: imm[12], imm[10:5], rs2, rs1, funct3, imm[4:1], imm[11], opcode. -/
def encodeB (funct3 opcode : Nat) (rs1 rs2 : Reg) (imm : Int) : Word :=
  BitVec.ofNat 32
    (bitsOf (immPattern 13 imm) 12 12 * 2 ^ 31 + bitsOf (immPattern 13 imm) 10 5 * 2 ^ 25
      + rs2.val * 2 ^ 20 + rs1.val * 2 ^ 15 + funct3 * 2 ^ 12
      + bitsOf (immPattern 13 imm) 4 1 * 2 ^ 8 + bitsOf (immPattern 13 imm) 11 11 * 2 ^ 7 + opcode)

/-- J format: imm[20], imm[10:1], imm[11], imm[19:12], rd, opcode. -/
def encodeJ (opcode : Nat) (rd : Reg) (imm : Int) : Word :=
  BitVec.ofNat 32
    (bitsOf (immPattern 21 imm) 20 20 * 2 ^ 31 + bitsOf (immPattern 21 imm) 10 1 * 2 ^ 21
      + bitsOf (immPattern 21 imm) 11 11 * 2 ^ 20 + bitsOf (immPattern 21 imm) 19 12 * 2 ^ 12
      + rd.val * 2 ^ 7 + opcode)

/-- The word of an instruction (R103, R113). Of an ill-formed one it is the word of the immediate's low bits. -/
def encode (i : Instr) : Word :=
  match i with
  | .add rd rs1 rs2 => encodeR f7Base f3AddSub opRegReg rd rs1 rs2
  | .sub rd rs1 rs2 => encodeR f7Sub f3AddSub opRegReg rd rs1 rs2
  | .slt rd rs1 rs2 => encodeR f7Base f3Slt opRegReg rd rs1 rs2
  | .srl rd rs1 rs2 => encodeR f7Base f3Srl opRegReg rd rs1 rs2
  | .or rd rs1 rs2 => encodeR f7Base f3Or opRegReg rd rs1 rs2
  | .and rd rs1 rs2 => encodeR f7Base f3And opRegReg rd rs1 rs2
  | .addi rd rs1 imm => encodeI f3Addi opRegImm rd rs1 imm
  | .lw rd rs1 imm => encodeI f3Lw opLoad rd rs1 imm
  | .jalr rd rs1 imm => encodeI f3Jalr opJalr rd rs1 imm
  | .beq rs1 rs2 imm => encodeB f3Beq opBranch rs1 rs2 imm
  | .bne rs1 rs2 imm => encodeB f3Bne opBranch rs1 rs2 imm
  | .blt rs1 rs2 imm => encodeB f3Blt opBranch rs1 rs2 imm
  | .jal rd imm => encodeJ opJal rd imm

/-! ## The host's view of the decoder -/

/-- The word whose low `nbits` bits are those of `w`, the rest zero. An instruction is one 32-bit word and
has no byte layout (R66), so the table's bit numbering is the word's own (R10). -/
def tableWord (nbits w : Nat) : Word := BitVec.ofNat 32 (w % 2 ^ nbits)

/-- The instruction the decoder reads from the bits `w` of an opcode-table row. -/
def decodeTableWord (nbits w : Nat) : Option Instr :=
  match decode (tableWord nbits w) with
  | .instr i => some i
  | .unsupported _ => none

end Sys2Proof
end

