-- ==== Sys2Proof/Machine/Flags.lean ====
section
/-! DEFINITION. The CORE has no flags and no condition codes: "Comparisons either write their result to a
register (`slt`) or decide a branch directly" (R41). These are the comparisons. -/

namespace Sys2Proof.Machine

/-- `beq`: all 32 bits equal (R207, R240). -/
def condEq (a b : Word) : Bool := decide (a = b)

/-- `bne`: not all bits equal (R207, R241). -/
def condNe (a b : Word) : Bool := decide (a ≠ b)

/-- `slt`, `blt`: less than, both read as signed (R203, R207, R242). -/
def condLt (a b : Word) : Bool := decide (a.sval < b.sval)

/-- A comparison's result in a register: 1 or 0 (R203). -/
def condWord (cond : Bool) : Word := if cond then 1 else 0

end Sys2Proof.Machine
end

