-- ==== Sys2Proof/Machine/Params.lean ====
section
/-! DEFINITION. The fixed parameters of 00_scope.md R6. The source's literals are "unaudited" (U13; log 18), so
each stands here once. -/

namespace Sys2Proof.Machine

/-- IMEM_BASE: the address of the first instruction, and the reset value of the pc (R6, R48). -/
def imemBase : Nat := 4

/-- IMEM stride: `prog[i]` is at `4*(i+1)` (R6, R61). -/
def imemStride : Nat := 4

/-- SP_INIT: the reset value of x2 (R6, R48). -/
def spInit : Word := 380

/-- DMEM_BASE (R6, R63). -/
def dmemBase : Nat := 0x00010000

/-- DMEM_WORDS (R6, R63). -/
def dmemWords : Nat := 32

/-- The distance between two DMEM words (R63: "multiples of 4"). -/
def dmemStride : Nat := 4

/-- The DMEM reset value of each word (R6, R63). -/
def dmemResetWord : Word := 0

/-- What a read of an unmapped address returns (R64). -/
def unmappedRead : Word := 0

/-- The delta of an instruction that does not transfer control (R39), and the link distance (R222, R260). -/
def nextDelta : Int := 4

/-- The longest program a launch may hold: N ≤ 2^30 - 1 (R172, D15). -/
def maxProgramWords : Nat := 2 ^ 30 - 1

end Sys2Proof.Machine
end

