-- ==== Sys2Proof/Machine/State.lean ====
section
/-! DEFINITION. The state of the CORE (10_state.md R30), its reset value (R48) and the reasons a step stops. -/

namespace Sys2Proof.Machine

/-- The general registers x0 to x31 (R31). -/
abbrev RegFile := Vector Word 32

/-- A data memory: the mapped words, each with its address (R63). The word is the smallest addressable unit
(R63, R66), so a cell is a word. The listed addresses ARE the domain: an address not listed is unmapped and
holds nothing, so a mapped word of 0 is listed (the dump of R158 tells the two apart; log 11). -/
structure Memory where
  cells : List (Nat × Word)
deriving DecidableEq, Repr

/-- The canonical form: addresses strictly rising. -/
def ascending (cells : List (Nat × Word)) : Bool :=
  match cells with
  | [] => true
  | c :: rest => rest.all (fun d => decide (c.1 < d.1)) && ascending rest

/-- The form of a memory: strictly rising addresses, each a 32-bit address (R60). Equal maps are equal lists. -/
def Memory.wf (m : Memory) : Bool :=
  ascending m.cells && m.cells.all (fun c => decide (c.1 < 2 ^ 32))

/-- R45: the three values of `status`. -/
inductive Status where
  /-- From reset until the run ends. -/
  | running
  /-- A taken branch with immediate 0 ended the run (R155). -/
  | halted
  /-- A fetch found no instruction (R151). -/
  | exhausted
deriving DecidableEq, Repr

/-- A trace line: (pc, x[0..31]) (R46, R156, R157). -/
structure TraceLine where
  pc : Word
  x : RegFile
deriving DecidableEq, Repr

/-- An unsupported-instruction report: (pc, word) (R301). DESIGN CHOICE of the spec, D8 (log 7). -/
structure Report where
  pc : Word
  word : Word
deriving DecidableEq, Repr

/-- All the state the spec gives the CORE (R30), and the dump it outputs at the end of a run (R158, R159). -/
structure State where
  /-- The register file (R31). -/
  x : RegFile
  /-- The program counter (R37). -/
  pc : Word
  /-- The data memory DMEM (R63). -/
  dmem : Memory
  /-- The instruction memory IMEM: `prog[i]`, at address `4*(i+1)`; no instruction writes it (R61). -/
  imem : List Word
  /-- The delta of the most recent non-halting step (R44). -/
  lastDelta : Int
  /-- Running, Halted or Exhausted (R45). -/
  status : Status
  /-- The trace log, oldest line first (R46). -/
  trace : List TraceLine
  /-- The report log, oldest report first (R46). -/
  report : List Report
  /-- The memory dump: none until the run ends (R158, R160, R163; log 14). -/
  dump : Option (List (Nat × Word))
deriving DecidableEq, Repr

/-- The reasons the machine stops. None is raised by an instruction: the CORE has no trap (R300). -/
inductive Fault where
  /-- Raised by `step` on a state whose run has ended: "Once Halted or Exhausted it never changes, and no
  further step is taken" (R45, R315). Safe: it is a stop and gives no state (log 15). -/
  | runEnded
deriving DecidableEq, Repr

/-- The reasons a step is refused. -/
inductive Refusal where
  /-- Raised by `exec` for an instruction that has no meaning yet. Safe. No arm raises it. -/
  | notModelled (mnemonic : String)
  /-- Raised by `step` on a launch outside 1 ≤ N ≤ 2^30 - 1, which R172 refuses. Safe (log 9). -/
  | launchRefused
deriving DecidableEq, Repr

/-- The register values at reset: x2 = 380, every other register 0 (R48). -/
def resetRegs : RegFile := (Vector.replicate 32 (0 : Word)).set 2 spInit

/-- DMEM at reset: 32 mapped words of 0 (R48, R63). -/
def resetDmem : Memory where
  cells := (List.range dmemWords).map (fun k => (dmemBase + dmemStride * k, dmemResetWord))

/-- The CORE right after reset (R48), with no program: IMEM's words are the launch's (R61, R350), which comes
from outside the machine (log 9). `lastDelta` has no reset value in the spec (R44): DESIGN CHOICE 0 (log 10). -/
def State.reset : State where
  x := resetRegs
  pc := BitVec.ofNat 32 imemBase
  dmem := resetDmem
  imem := []
  lastDelta := 0
  status := .running
  trace := []
  report := []
  dump := none

end Sys2Proof.Machine
end

