-- ==== Sys2Proof/Machine/Ops.lean ====
section
/-! DEFINITION. The named operations over memory and registers, and the shared end of every step:
WRITEBACK, HALT, ADVANCE, the end of a run, and the unsupported-instruction report, which is all the CORE has
in place of an exception (R300). There is no trap entry and no return from one (R307, R308). -/

namespace Sys2Proof.Machine

/-! ## Registers (R15) -/

/-- `x[i]` (R15). Index 0 needs no case: x[0] is 0 at reset and after every instruction (R33; log 16). -/
def State.readReg (s : State) (r : Reg) : Word := s.x[r.val]

/-- `x[i] <- v` (R15). -/
def State.writeReg (s : State) (r : Reg) (v : Word) : State := { s with x := s.x.set r.val v }

/-! ## Data memory -/

/-- The word a cell list holds at an address, if the address is listed. -/
def lookupCell (cells : List (Nat × Word)) (a : Nat) : Option Word :=
  match cells with
  | [] => none
  | c :: rest => if c.1 = a then some c.2 else lookupCell rest a

/-- Lists a word at an address, in place or in order. -/
def insertCell (cells : List (Nat × Word)) (a : Nat) (v : Word) : List (Nat × Word) :=
  match cells with
  | [] => [(a, v)]
  | c :: rest =>
    if a < c.1 then (a, v) :: c :: rest
    else if a = c.1 then (a, v) :: rest
    else c :: insertCell rest a v

/-- `DMEM(addr)` where addr is mapped (R63). -/
def Memory.lookup (m : Memory) (addr : Word) : Option Word := lookupCell m.cells addr.toNat

/-- `MemRead(addr, 4)`: "reads of unmapped addresses return zero (never an error)" (R64). An address that is
not a multiple of 4 is unmapped (R67). -/
def Memory.read (m : Memory) (addr : Word) : Word := (m.lookup addr).getD unmappedRead

/-- `MemWrite(addr, 4, v)`: sets `DMEM(addr)` and maps addr (R65). No supported instruction uses it (R16). -/
def Memory.write (m : Memory) (addr v : Word) : Memory where
  cells := insertCell m.cells addr.toNat v

/-- The dump: `(a, DMEM(a))` for each mapped a, ascending (R158). -/
def Memory.dumpCells (m : Memory) : List (Nat × Word) := m.cells

/-! ## Instruction memory -/

/-- The index i of the program word that an address `4*(i+1)` names; no other address names one (R61). -/
def slotIndex (a : Word) : Option Nat :=
  if imemBase ≤ a.toNat ∧ (a.toNat - imemBase) % imemStride = 0 then
    some ((a.toNat - imemBase) / imemStride)
  else none

/-- `Fetch(a)`: IMEM's word at a, or none where a is not `4*(i+1)` for an i below N (R61, R62, R68). -/
def fetchWord (imem : List Word) (a : Word) : Option Word :=
  match slotIndex a with
  | some i => imem[i]?
  | none => none

/-- FETCH: `Fetch(pc)` (R151). -/
def State.fetch (s : State) : Option Word := fetchWord s.imem s.pc

/-- The launch precondition: 1 ≤ N ≤ 2^30 - 1 (R172). -/
def launchOk (imem : List Word) : Bool :=
  decide (1 ≤ imem.length ∧ imem.length ≤ maxProgramWords)

/-- The state a launch of `prog` starts from: every piece at its reset value and IMEM built (R48, R350). -/
def State.launch (prog : List Word) : State := { State.reset with imem := prog }

/-! ## What an instruction answers -/

/-- What EXECUTE answers: its single register write, if it has one, and the pair (delta, halt) (R17, R153).
No instruction writes memory (R154). -/
structure Effect where
  write : Option (Reg × Word)
  delta : Int
  halt : Bool
deriving DecidableEq, Repr

/-- An instruction that writes rd and goes on to the next one: (4, false) (R200). -/
def Effect.result (rd : Reg) (v : Word) : Effect := ⟨some (rd, v), nextDelta, false⟩

/-! ## WRITEBACK, HALT, ADVANCE, end of run -/

/-- WRITEBACK: the register write, then `x[0] <- 0` (R33, R154). -/
def State.writeback (s : State) (write : Option (Reg × Word)) : State :=
  match write with
  | none => s.writeReg 0 0
  | some (r, v) => (s.writeReg r v).writeReg 0 0

/-- A trace line of the registers as they are (R156, C4), at an address. -/
def State.lineAt (s : State) (pc : Word) : TraceLine := ⟨pc, s.x⟩

/-- The pc of the final line (R157). -/
def State.finalPc (s : State) : Word :=
  match s.status with
  | .exhausted => Word.wrap (s.pc.uval - s.lastDelta)
  | .halted => s.pc
  | .running => s.pc

/-- End of run: the status, the final line and the dump (R157, R158, R159). -/
def State.endOfRun (s : State) (status : Status) : State :=
  let ended := { s with status := status }
  { ended with
    trace := ended.trace ++ [ended.lineAt ended.finalPc]
    dump := some ended.dmem.dumpCells }

/-- ADVANCE: the trace line, lastDelta and the pc, in that order (R156). The pc wraps (D5; log 4). -/
def State.advance (s : State) (delta : Int) : State :=
  { s with
    trace := s.trace ++ [s.lineAt s.pc]
    lastDelta := delta
    pc := Word.wrap (s.pc.uval + delta) }

/-- What follows EXECUTE in every step: WRITEBACK, then HALT or ADVANCE (R154 to R156, R159). -/
def State.retire (s : State) (e : Effect) : State :=
  let written := s.writeback e.write
  if e.halt then written.endOfRun .halted else written.advance e.delta

/-- The outcome of an instruction: it always completes (R300: no exception exists). -/
def complete (e : Effect) (s : State) : Host.Outcome State Fault Refusal := .next (s.retire e)

/-- The fetch found no instruction: the run ends and nothing executes (R151). -/
def State.exhaust (s : State) : State := s.endOfRun .exhausted

/-! ## The unsupported-instruction report -/

/-- `raise Unsupported(pc, word)`: the report (R17, R301). Nothing is saved and no handler is entered. -/
def State.raiseUnsupported (s : State) (w : Word) : State :=
  { s with report := s.report ++ [⟨s.pc, w⟩] }

/-! ## Placing a word where it is fetched next (the host's view; log 20) -/

/-- IMEM with the word at index k: all-zero words up to k where the program is shorter, and no more words
than a launch may hold. -/
def placeAt (imem : List Word) (k : Nat) (w : Word) : List Word :=
  ((imem ++ List.replicate (k + 1 - imem.length) 0).set k w).take maxProgramWords

/-- The state whose next step fetches `w`: Running, with w in IMEM at the pc. A pc that can hold no
instruction (R61) is set to the reset entry 4. -/
def State.placeWord (s : State) (w : Word) : State :=
  match slotIndex s.pc with
  | some k => { s with status := .running, imem := placeAt s.imem k w }
  | none =>
    { s with status := .running, pc := BitVec.ofNat 32 imemBase, imem := placeAt s.imem 0 w }

end Sys2Proof.Machine
end

