-- ==== Sys2Proof/Machine/Operands.lean ====
section
/-! DEFINITION. The operand forms: register sources (R35), base plus offset, the only addressing mode (R223),
and the values a control transfer computes (R222, R243, R244, R260). Sources are read before the
instruction's own write (R152, D6; log 5): every form below reads the state before `State.retire`. -/

namespace Sys2Proof.Machine

/-- `(uval(x[rs1]) + imm) mod 2^32`: the address of `lw` and the sum of `jalr` (R221, R222, R223). -/
def State.basePlusOffset (s : State) (rs1 : Reg) (imm : Int) : Word :=
  Word.wrap ((s.readReg rs1).uval + imm)

/-- The target of `jalr`: the sum with bit 0 cleared, an absolute address (R222, C3; log 12). -/
def State.jalrTarget (s : State) (rs1 : Reg) (imm : Int) : Word :=
  s.basePlusOffset rs1 imm &&& 0xFFFFFFFE#32

/-- The delta that moves the pc to a target: `target - pc` (R222). -/
def State.deltaTo (s : State) (target : Word) : Int := target.uval - s.pc.uval

/-- The link value: `(pc + 4) mod 2^32` (R222, R260). -/
def State.linkValue (s : State) : Word := Word.wrap (s.pc.uval + nextDelta)

/-- `resolve(cond, imm)`: what a branch answers (R243). -/
def resolve (cond : Bool) (imm : Int) : Effect :=
  if cond then
    if imm = 0 then ⟨none, 0, true⟩ else ⟨none, imm, false⟩
  else ⟨none, nextDelta, false⟩

end Sys2Proof.Machine
end

