-- ==== Sys2Proof/Machine/Branch.lean ====
section
/-! DEFINITION. The conditional branches (43_branch.md). -/

namespace Sys2Proof.Machine

/-- R240. -/
def execBeq (rs1 rs2 : Reg) (imm : Int) (s : State) : Host.Outcome State Fault Refusal :=
  complete (resolve (condEq (s.readReg rs1) (s.readReg rs2)) imm) s

/-- R241. -/
def execBne (rs1 rs2 : Reg) (imm : Int) (s : State) : Host.Outcome State Fault Refusal :=
  complete (resolve (condNe (s.readReg rs1) (s.readReg rs2)) imm) s

/-- R242. -/
def execBlt (rs1 rs2 : Reg) (imm : Int) (s : State) : Host.Outcome State Fault Refusal :=
  complete (resolve (condLt (s.readReg rs1) (s.readReg rs2)) imm) s

end Sys2Proof.Machine
end

