-- ==== Sys2Proof/Machine/ImmLoadJalr.lean ====
section
/-! DEFINITION. `addi`, `lw` and `jalr` (42_immediate_load_jalr.md). -/

namespace Sys2Proof.Machine

/-- R220: `(uval(x[rs1]) + immI) mod 2^32`. -/
def execAddi (rd rs1 : Reg) (imm : Int) (s : State) : Host.Outcome State Fault Refusal :=
  complete (.result rd (Word.wrap ((s.readReg rs1).uval + imm))) s

/-- R221: `MemRead` at base plus offset; a read changes nothing in DMEM (R64; log 6). -/
def execLw (rd rs1 : Reg) (imm : Int) (s : State) : Host.Outcome State Fault Refusal :=
  complete (.result rd (s.dmem.read (s.basePlusOffset rs1 imm))) s

/-- R222: the link value to rd and the pc to the absolute target, read before the link is written. -/
def execJalr (rd rs1 : Reg) (imm : Int) (s : State) : Host.Outcome State Fault Refusal :=
  complete ⟨some (rd, s.linkValue), s.deltaTo (s.jalrTarget rs1 imm), false⟩ s

end Sys2Proof.Machine
end

