-- ==== Sys2Proof/Machine/Jump.lean ====
section
/-! DEFINITION. `jal` (44_jal.md). -/

namespace Sys2Proof.Machine

/-- R260: the link is written only when rd is not 0; the immediate is a delta, and 0 does not halt. -/
def execJal (rd : Reg) (imm : Int) (s : State) : Host.Outcome State Fault Refusal :=
  complete ⟨if rd = 0 then none else some (rd, s.linkValue), imm, false⟩ s

end Sys2Proof.Machine
end

