-- ==== Sys2Proof/Config.lean ====
section
/-! DEFINITION. The parameters that the spec leaves OPEN (00_scope.md R7): constants without a body, so that
nothing proved here can lean on a value of them. The fixed parameters of R6 stand in Machine/Params.lean. -/

namespace Sys2Proof

/-- The two readings of the shift amount of `srl` (R204, D4). -/
inductive SrlShamt where
  /-- Only bits 4:0 of x[rs2] count. -/
  | mask5
  /-- The whole unsigned value of x[rs2] counts. -/
  | full
deriving DecidableEq, Repr, Inhabited

/-- The strings of the text trace that R171 and D16 leave OPEN. D16 names "trailing spaces" and gives them no form:
DESIGN CHOICE of the model, each kind of line ends in one string of its own, the same on every line of that kind
(log 19). -/
structure TraceText where
  /-- The radix prefix of a binary numeral. -/
  radixPrefix : List Char
  /-- What stands before a dump line's eight hexadecimal digits. -/
  addressPrefix : List Char
  /-- What stands between a dump line's address and its value. -/
  separator : List Char
  /-- What stands at a trace line's end, before the newline (D16: "trailing spaces"; log 19). -/
  lineTrailing : List Char
  /-- What stands at a memory dump line's end, before the newline (D16: "trailing spaces"; log 19). -/
  dumpTrailing : List Char
deriving DecidableEq, Repr, Inhabited

/-- `P_SRL_SHAMT` (R7, R204): OPEN, so it has no body. DESIGN CHOICE of form, safe (log 3). -/
opaque Config.srlShamt : SrlShamt

/-- `P_TRACE_TEXT` (R7, R171): OPEN, so it has no body. DESIGN CHOICE of form, safe (log 19). -/
opaque Config.traceText : TraceText

end Sys2Proof
end

