-- ==== Sys2Proof/Machine/RegReg.lean ====
section
/-! DEFINITION. The register-register instructions (41_register_register.md). -/

namespace Sys2Proof.Machine

/-- `(uval(a) + uval(b)) mod 2^32` (R201). -/
def aluAdd (a b : Word) : Word := Word.wrap (a.uval + b.uval)

/-- `(uval(a) - uval(b)) mod 2^32` (R202). -/
def aluSub (a b : Word) : Word := Word.wrap (a.uval - b.uval)

/-- `(sval(a) < sval(b)) ? 1 : 0` (R203). -/
def aluSlt (a b : Word) : Word := condWord (condLt a b)

/-- The shift amount of `srl` under a reading of P_SRL_SHAMT (R204). -/
def srlAmount (p : SrlShamt) (b : Word) : Nat :=
  match p with
  | .mask5 => b.toNat &&& 31
  | .full => b.toNat

/-- `floor(uval(a) / 2^shamt)`, zero fill (R204). -/
def aluSrl (p : SrlShamt) (a b : Word) : Word := a >>> srlAmount p b

/-- Bitwise OR (R205). -/
def aluOr (a b : Word) : Word := a ||| b

/-- Bitwise AND (R206). -/
def aluAnd (a b : Word) : Word := a &&& b

/-- R201. -/
def execAdd (rd rs1 rs2 : Reg) (s : State) : Host.Outcome State Fault Refusal :=
  complete (.result rd (aluAdd (s.readReg rs1) (s.readReg rs2))) s

/-- R202. -/
def execSub (rd rs1 rs2 : Reg) (s : State) : Host.Outcome State Fault Refusal :=
  complete (.result rd (aluSub (s.readReg rs1) (s.readReg rs2))) s

/-- R203. -/
def execSlt (rd rs1 rs2 : Reg) (s : State) : Host.Outcome State Fault Refusal :=
  complete (.result rd (aluSlt (s.readReg rs1) (s.readReg rs2))) s

/-- R204, for whichever reading P_SRL_SHAMT has (D4; log 3). -/
def execSrl (rd rs1 rs2 : Reg) (s : State) : Host.Outcome State Fault Refusal :=
  complete (.result rd (aluSrl Config.srlShamt (s.readReg rs1) (s.readReg rs2))) s

/-- R205. -/
def execOr (rd rs1 rs2 : Reg) (s : State) : Host.Outcome State Fault Refusal :=
  complete (.result rd (aluOr (s.readReg rs1) (s.readReg rs2))) s

/-- R206. -/
def execAnd (rd rs1 rs2 : Reg) (s : State) : Host.Outcome State Fault Refusal :=
  complete (.result rd (aluAnd (s.readReg rs1) (s.readReg rs2))) s

end Sys2Proof.Machine
end

