-- ==== Sys2Proof/Machine/Unsupported.lean ====
section
/-! DEFINITION. The step of a word that is none of the 13 instructions (60_exceptions.md R301). -/

namespace Sys2Proof.Machine

/-- `execute(Unsupported(w))`: the report, then a no-op with delta 4; the step is recorded (R301). -/
def execUnsupported (w : Word) (s : State) : Host.Outcome State Fault Refusal :=
  complete ⟨none, nextDelta, false⟩ (s.raiseUnsupported w)

end Sys2Proof.Machine
end

