-- ==== Sys2Proof/Machine/Step.lean ====
section
/-! DEFINITION. One step of the CORE (40_execution.md R150 to R159), and the host's way to place a word. -/

namespace Sys2Proof.Machine

/-- EXECUTE and what follows it, for a decoded word (R153). -/
def execDecoded (d : Decoded) (s : State) : Host.Outcome State Fault Refusal :=
  match d with
  | .instr i => exec i s
  | .unsupported w => execUnsupported w s

/-- FETCH, DECODE, EXECUTE, WRITEBACK, then HALT or ADVANCE (R150, R159), in the order of R306. A step is
taken only while the status is Running (R150) and only of an admitted launch (R172). -/
def step (s : State) : Host.Outcome State Fault Refusal :=
  match s.status with
  | .halted => .fault .runEnded
  | .exhausted => .fault .runEnded
  | .running =>
    if launchOk s.imem then
      match s.fetch with
      | none => .next s.exhaust
      | some w => execDecoded (decode w) s
    else .refused .launchRefused

/-- The state whose next step runs the opcode-table word `w` (log 20). -/
def State.withFetchWord (s : State) (nbits w : Nat) : State := s.placeWord (tableWord nbits w)

end Sys2Proof.Machine
end

