-- ==== Sys2Proof/Machine/Loader.lean ====
section
/-! DEFINITION. The host's side of a launch: the input lines become `prog`, or the launch is refused
(40_execution.md R170, R172; 60_exceptions.md R304; 70_reset_and_hazards.md R350). The spec's scope puts the
reading of the file itself outside the CORE (R5); what the text means is R170's. -/

namespace Sys2Proof.Machine

/-- A blank line, which is skipped (R170): DESIGN CHOICE, nothing but white space (log 8). -/
def isBlank (line : List Char) : Bool := line.all Char.isWhitespace

/-- A line of radix-2 text of the expected width: 32 characters, each `0` or `1` (R170). -/
def isBinaryLine (line : List Char) : Bool :=
  line.length == 32 && line.all (fun c => c == '0' || c == '1')

/-- The numeral a line writes, most significant bit first (R66, R170, D9; log 8). -/
def lineValue (line : List Char) : Nat :=
  line.foldl (fun n c => 2 * n + (if c = '1' then 1 else 0)) 0

/-- The word of a line, if the line is valid (R170). -/
def parseLine (line : List Char) : Option Word :=
  if isBinaryLine line then some (BitVec.ofNat 32 (lineValue line)) else none

/-- Why a launch never starts. -/
inductive LaunchError where
  /-- A non-blank line is not 32 binary digits: MalformedInputLine, which fails "the whole run fast" (R304). -/
  | malformedInputLine
  /-- N = 0: an empty or all-blank input (R172, D10). -/
  | noInstructions
  /-- N > 2^30 - 1 (R172, D15). -/
  | tooManyInstructions
deriving DecidableEq, Repr

/-- The words of the non-blank lines, in order, if every one is valid (R170). -/
def parseProgram (lines : List (List Char)) : Option (List Word) :=
  match lines with
  | [] => some []
  | l :: rest =>
    if isBlank l then parseProgram rest
    else
      match parseLine l, parseProgram rest with
      | some w, some ws => some (w :: ws)
      | _, _ => none

/-- R350: parse, refuse or build IMEM, and take every reset value. -/
def boot (lines : List (List Char)) : Except LaunchError State :=
  match parseProgram lines with
  | none => .error .malformedInputLine
  | some prog =>
    if prog.length = 0 then .error .noInstructions
    else if maxProgramWords < prog.length then .error .tooManyInstructions
    else .ok (State.launch prog)

end Sys2Proof.Machine
end

