-- ==== Sys2Proof/Machine/TraceText.lean ====
section
/-! DEFINITION. The text of the trace file that the host writes from the CORE's outputs (40_execution.md R171).
It is outside the CORE (R5); the strings R171 leaves open are a parameter (P_TRACE_TEXT, D16; log 19). -/

namespace Sys2Proof.Machine

/-- A "fixed-width 32-character binary string", bit 31 first (R171, D9). -/
def binaryText (w : Word) : List Char :=
  (List.range 32).map (fun i => if w.getLsbD (31 - i) then '1' else '0')

/-- A hexadecimal digit, upper-case (R171). -/
def hexDigit (d : Nat) : Char := "0123456789ABCDEF".toList.getD d '0'

/-- An "8-hex-digit address (upper-case, zero-padded)" (R171). -/
def hexText (a : Nat) : List Char :=
  (List.range 8).map (fun i => hexDigit (a / 16 ^ (7 - i) % 16))

/-- A value with its radix prefix (R171). -/
def prefixedText (t : TraceText) (w : Word) : List Char := t.radixPrefix ++ binaryText w

/-- The fields of a trace line, in order: the PC and all 32 registers (R171). -/
def TraceLine.words (l : TraceLine) : List Word := l.pc :: l.x.toList

/-- `formatStep(pc, registers)`: the fields, space-separated (R171), and the trace line's trailing string (log 19). -/
def formatStep (t : TraceText) (l : TraceLine) : List Char :=
  [' '].intercalate (l.words.map (prefixedText t)) ++ t.lineTrailing

/-- A memory dump line: the address, then the value (R171), and the dump line's trailing string (log 19). -/
def formatDumpLine (t : TraceText) (c : Nat × Word) : List Char :=
  t.addressPrefix ++ hexText c.1 ++ t.separator ++ prefixedText t c.2 ++ t.dumpTrailing

/-- The lines of the trace file: one for each recorded step, "followed immediately by the memory dump lines"
(R171). A run that has not ended has no dump (R160). -/
def traceFileLines (t : TraceText) (s : State) : List (List Char) :=
  s.trace.map (formatStep t) ++ (s.dump.getD []).map (formatDumpLine t)

/-- The trace file: "newline-terminated, no blank separator" (R171). -/
def traceFile (s : State) : List Char :=
  ((traceFileLines Config.traceText s).map (fun l => l ++ ['\n'])).flatten

end Sys2Proof.Machine
end

