-- ==== Sys2Proof/Safety.lean ====
section
/-! DEFINITION. The terms the claims use: what a step may change and must leave, how a run ends, the invariant
of a run, and R113's table of masks as the spec prints it. -/

namespace Sys2Proof.Safety

open Sys2Proof Sys2Proof.Machine

/-- What no instruction changes: what any address of DMEM reads as, which addresses are mapped, and IMEM (R64,
R65, R75). -/
structure MemoriesKept (s t : State) : Prop where
  data : ∀ a : Word, t.dmem.read a = s.dmem.read a
  domain : ∀ a : Word, (t.dmem.lookup a).isSome = (s.dmem.lookup a).isSome
  program : t.imem = s.imem

/-- The registers after an instruction whose only write is `v` to `rd` (R33, R34). A write to x0 is discarded. -/
structure WroteOnly (s t : State) (rd : Reg) (v : Word) : Prop where
  dest : rd ≠ 0 → t.x[rd.val] = v
  zero : t.x[0] = 0
  others : ∀ r : Reg, r ≠ rd → r ≠ 0 → t.x[r.val] = s.x[r.val]

/-- The registers after an instruction that writes none: only the forcing of x0 (R33, R34). -/
structure WroteNone (s t : State) : Prop where
  zero : t.x[0] = 0
  others : ∀ r : Reg, r ≠ 0 → t.x[r.val] = s.x[r.val]

/-- The frame of a non-halting step that returned `delta`: one trace line of the instruction's address and the
registers after it, lastDelta, and nothing else but the registers and the pc (R156). -/
structure WentOn (s t : State) (delta : Int) : Prop extends MemoriesKept s t where
  line : t.trace = s.trace ++ [⟨s.pc, t.x⟩]
  lastDelta : t.lastDelta = delta
  status : t.status = s.status
  report : t.report = s.report
  dump : t.dump = s.dump

/-- The frame of the halting step: status Halted, the final line at the branch's own address, the dump, and
nothing else (R155, R157, R158). -/
structure HaltedAt (s t : State) : Prop extends MemoriesKept s t where
  status : t.status = .halted
  pc : t.pc = s.pc
  lastDelta : t.lastDelta = s.lastDelta
  registers : WroteNone s t
  line : t.trace = s.trace ++ [⟨s.pc, t.x⟩]
  report : t.report = s.report
  dump : t.dump = some s.dmem.cells

/-- An ended run (R45). -/
def Ended (s : State) : Prop := s.status = .halted ∨ s.status = .exhausted

/-- A state in which a step is taken: Running, of an admitted launch (R150, R172). -/
def Steppable (s : State) : Prop := s.status = .running ∧ launchOk s.imem = true

/-- `k` steps, stopping at the first stop: what Host.Core.run does of this machine, over its own types. -/
def run (k : Nat) (s : State) : Host.Outcome State Fault Refusal :=
  match k with
  | 0 => .next s
  | k + 1 =>
    match step s with
    | .next t => run k t
    | .fault r => .fault r
    | .refused r => .refused r

/-- Two outcomes agree up to a relation of states: both answer related states, or both are the same stop. -/
def AgreeUpTo (R : State → State → Prop) (a b : Host.Outcome State Fault Refusal) : Prop :=
  match a, b with
  | .next t, .next u => R t u
  | .fault p, .fault q => p = q
  | .refused p, .refused q => p = q
  | _, _ => False

/-- Equal in everything but the trace log and the report log. -/
def EqualButLogs (t u : State) : Prop :=
  { t with trace := [], report := [] } = { u with trace := [], report := [] }

/-- Equal in everything but lastDelta. -/
def EqualButLastDelta (t u : State) : Prop := { t with lastDelta := 0 } = { u with lastDelta := 0 }

/-- A fetched branch that is taken with immediate 0: the halt idiom (R18, R155, R243). -/
def HaltIdiom (s : State) : Prop :=
  ∃ w rs1 rs2, s.fetch = some w ∧
    ((decode w = .instr (.beq rs1 rs2 0) ∧ s.x[rs1.val] = s.x[rs2.val]) ∨
     (decode w = .instr (.bne rs1 rs2 0) ∧ s.x[rs1.val] ≠ s.x[rs2.val]) ∨
     (decode w = .instr (.blt rs1 rs2 0) ∧ s.x[rs1.val].toInt < s.x[rs2.val].toInt))

/-- What every state of a run satisfies: x0 is 0 (R33), DMEM keeps its form (R63), the pc is even (R68), every
trace line shows an even pc and x0 = 0, the dump is there exactly when the run has ended and lists DMEM (R158,
R160), and while the run goes on either no step has been taken (the pc is the reset entry 4, R48) or the last
trace line is the registers at the address the pc came from (R156; mod 2^32 by D5, log 4). -/
structure Inv (s : State) : Prop where
  zero : s.x[0] = 0
  memory : s.dmem.wf = true
  pcEven : s.pc.toNat % 2 = 0
  lines : ∀ l ∈ s.trace, l.pc.toNat % 2 = 0 ∧ l.x[0] = 0
  dump : s.dump = if s.status = .running then none else some s.dmem.cells
  lastLine : s.status = .running →
    (s.trace = [] ∧ s.pc = 4) ∨ s.trace.getLast? = some ⟨Word.wrap (s.pc.uval - s.lastDelta), s.x⟩

/-- A row of R113's table: the match and mask words, and what the format's decoder builds (R104 to R107, R114). -/
structure MaskRow where
  matchBits : Word
  mask : Word
  build : Word → Instr

/-- R113's table, in its order. -/
def maskRows : List MaskRow := [
  ⟨0x00000033, 0xFE00707F, fun w => .add (rdOf w) (rs1Of w) (rs2Of w)⟩,
  ⟨0x40000033, 0xFE00707F, fun w => .sub (rdOf w) (rs1Of w) (rs2Of w)⟩,
  ⟨0x00002033, 0xFE00707F, fun w => .slt (rdOf w) (rs1Of w) (rs2Of w)⟩,
  ⟨0x00005033, 0xFE00707F, fun w => .srl (rdOf w) (rs1Of w) (rs2Of w)⟩,
  ⟨0x00006033, 0xFE00707F, fun w => .or (rdOf w) (rs1Of w) (rs2Of w)⟩,
  ⟨0x00007033, 0xFE00707F, fun w => .and (rdOf w) (rs1Of w) (rs2Of w)⟩,
  ⟨0x00000013, 0x0000707F, fun w => .addi (rdOf w) (rs1Of w) (immI w)⟩,
  ⟨0x00002003, 0x0000707F, fun w => .lw (rdOf w) (rs1Of w) (immI w)⟩,
  ⟨0x00000067, 0x0000707F, fun w => .jalr (rdOf w) (rs1Of w) (immI w)⟩,
  ⟨0x00000063, 0x0000707F, fun w => .beq (rs1Of w) (rs2Of w) (immB w)⟩,
  ⟨0x00001063, 0x0000707F, fun w => .bne (rs1Of w) (rs2Of w) (immB w)⟩,
  ⟨0x00004063, 0x0000707F, fun w => .blt (rs1Of w) (rs2Of w) (immB w)⟩,
  ⟨0x0000006F, 0x0000007F, fun w => .jal (rdOf w) (immJ w)⟩]

/-- R113: "A word selects an instruction when `(w & mask) = match`". -/
def MaskRow.Selects (r : MaskRow) (w : Word) : Prop := w &&& r.mask = r.matchBits

end Sys2Proof.Safety
end

