-- ==== Sys2Proof/Certificates/Slice0/Obligations.lean ====
section
/-! DEFINITION. The statements for the provers, from the numbered rules of spec/. -/

open Sys2Proof Sys2Proof.Machine Sys2Proof.Safety

/-! ## Encoding -/

/-- Decoding the word of a well-formed instruction gives the instruction back, with every operand at every value
its format holds. Rests on R103 and R113, whose field positions and values are the spec's from RV32I (log 1). -/
def Obligations.DecodeOfEncode : Prop :=
  ∀ i : Instr, i.wellFormed = true → decode (encode i) = .instr i

/-- Every word that decodes to an instruction is the word of that instruction, which is well-formed: no bit of a
supported word is ignored (R118). Rests on R103 and R113 (log 1). -/
def Obligations.EncodeOfDecode : Prop :=
  ∀ (w : Word) (i : Instr), decode w = .instr i → i.wellFormed = true ∧ encode i = w

/-- The two-level dispatch selects exactly as R113's table of matches and masks does (R112 to R115). The values,
and that every listed field is compared, are the spec's decisions D1 to D3 (logs 1, 2). -/
def Obligations.DecodeFollowsTheMaskTable : Prop :=
  ∀ w : Word,
    (∀ r ∈ maskRows, r.Selects w → decode w = .instr (r.build w)) ∧
    ((∀ r ∈ maskRows, ¬ r.Selects w) → decode w = .unsupported w)

/-- "At most one row matches any word" (R113, derived there from the table; logs 1, 2). -/
def Obligations.NoWordMatchesTwoMaskRows : Prop :=
  maskRows.Pairwise (fun r q => ∀ w : Word, ¬ (r.Selects w ∧ q.Selects w))

/-- The register fields, the function selects and the I immediate as bit slices of the word (R103 to R105, R108).
Their positions are the spec's from RV32I (G3; log 1). -/
def Obligations.RegisterFieldsAndImmIAreSlices : Prop :=
  ∀ w : Word,
    (rdOf w).val = (w.extractLsb' 7 5).toNat ∧
    (rs1Of w).val = (w.extractLsb' 15 5).toNat ∧
    (rs2Of w).val = (w.extractLsb' 20 5).toNat ∧
    funct3Of w = (w.extractLsb' 12 3).toNat ∧
    funct7Of w = (w.extractLsb' 25 7).toNat ∧
    opcodeOf w = (w.extractLsb' 0 7).toNat ∧
    immI w = (w.extractLsb' 20 12).toInt

/-- R109: the 13-bit B immediate, scattered and sign-extended; it is even and in -4096 .. 4094. -/
def Obligations.BranchImmediateScatter : Prop :=
  ∀ w : Word,
    immB w = (w.extractLsb' 31 1 ++ w.extractLsb' 7 1 ++ w.extractLsb' 25 6 ++ w.extractLsb' 8 4
      ++ (0 : BitVec 1) : BitVec 13).toInt ∧
    immB w % 2 = 0 ∧ -4096 ≤ immB w ∧ immB w ≤ 4094

/-- R110: the 21-bit J immediate, scattered and sign-extended; it is even and in -1048576 .. 1048574. -/
def Obligations.JumpImmediateScatter : Prop :=
  ∀ w : Word,
    immJ w = (w.extractLsb' 31 1 ++ w.extractLsb' 12 8 ++ w.extractLsb' 20 1 ++ w.extractLsb' 21 10
      ++ (0 : BitVec 1) : BitVec 21).toInt ∧
    immJ w % 2 = 0 ∧ -1048576 ≤ immJ w ∧ immJ w ≤ 1048574

/-- R101: a field is `width` bits from `lowBit`, for every field that lies in the word. -/
def Obligations.ExtractFieldIsTheBitSlice : Prop :=
  ∀ (w : Word) (lowBit width : Nat), lowBit + width ≤ 32 →
    extractField w lowBit width = (w.extractLsb' lowBit width).toNat

/-- R102: exact two's complement, whose result lies in [-2^(n-1), 2^(n-1) - 1], and whose low n bits are the
field again (the round trip), at the widths 12, 13 and 21. -/
def Obligations.SignExtendIsExactTwosComplement : Prop :=
  ∀ n ∈ [12, 13, 21], ∀ v : Nat, v < 2 ^ n →
    signExtend v n = (BitVec.ofNat n v).toInt ∧
    -(2 ^ (n - 1) : Int) ≤ signExtend v n ∧ signExtend v n ≤ 2 ^ (n - 1) - 1 ∧
    signExtend (extractField (BitVec.ofInt 32 (signExtend v n)) 0 n) n = signExtend v n

/-- A few words written out from R103 and R113 decode to their instructions (spec/95_test_vectors.md W1 to W6, E1,
E2, D5). A sanity statement on the presumed encodings (log 1). -/
def Obligations.SampleWordsDecode : Prop :=
  decode 0x002081B3 = .instr (.add 3 1 2) ∧
  decode 0x406283B3 = .instr (.sub 7 5 6) ∧
  decode 0x00508093 = .instr (.addi 1 1 5) ∧
  decode 0x00412283 = .instr (.lw 5 2 4) ∧
  decode 0x003282E7 = .instr (.jalr 5 5 3) ∧
  decode 0xFE009CE3 = .instr (.bne 1 0 (-8)) ∧
  decode 0xFF1FF0EF = .instr (.jal 1 (-16)) ∧
  decode 0x00000000 = .unsupported 0x00000000 ∧
  decode 0xFFFFFFFF = .unsupported 0xFFFFFFFF

/-! ## Reset and the memories -/

/-- R48: every row of the reset table of a launch: the pc, each register, DMEM's domain and contents, IMEM's, the
status and the two empty logs. R48 leaves lastDelta unspecified, and nothing is said of it here. -/
def Obligations.LaunchTakesTheResetValues : Prop :=
  ∀ prog : List Word, launchOk prog = true →
    let s := State.launch prog
    s.pc = 4 ∧ s.x[2] = 380 ∧ (∀ r : Reg, r ≠ 2 → s.x[r.val] = 0) ∧
    (∀ a : Word, s.dmem.lookup a =
      if ∃ k : Nat, k ≤ 31 ∧ a.toNat = 0x00010000 + 4 * k then some 0 else none) ∧
    (∀ (i : Nat) (h : i < prog.length), fetchWord s.imem (BitVec.ofNat 32 (4 * (i + 1))) = some prog[i]) ∧
    (∀ a : Word, (∀ i < prog.length, a.toNat ≠ 4 * (i + 1)) → fetchWord s.imem a = none) ∧
    s.status = .running ∧ s.trace = [] ∧ s.report = []

/-- R61: after any number of steps of a launch, IMEM holds `prog[i]` at `4*(i+1)` and nothing at any other address
(so nothing at 0, at an address that is not a multiple of 4, or past the last word). -/
def Obligations.FetchReadsTheProgram : Prop :=
  ∀ (prog : List Word) (k : Nat) (t : State), launchOk prog = true → run k (State.launch prog) = .next t →
    ∀ a w : Word, fetchWord t.imem a = some w ↔ ∃ i : Nat, a.toNat = 4 * (i + 1) ∧ prog[i]? = some w

/-- R64's primitive: a mapped address reads as its word, and an unmapped address as 0. -/
def Obligations.UnmappedReadsReturnZero : Prop :=
  ∀ (m : Memory) (a v : Word), m.wf = true →
    ((a.toNat, v) ∈ m.cells → m.read a = v) ∧
    ((∀ u : Word, (a.toNat, u) ∉ m.cells) → m.read a = 0)

/-- R65's primitive: MemWrite sets the word at its address, maps the address, and leaves every other address as it
was, mapped or not. -/
def Obligations.MemWriteSetsOneWord : Prop :=
  ∀ (m : Memory) (a v b : Word), m.wf = true →
    (m.write a v).lookup a = some v ∧
    (b ≠ a → (m.write a v).lookup b = m.lookup b)

/-- R65: no step writes DMEM, and from the reset contents every `lw` that completes loads 0 (x0 stays 0). -/
def Obligations.NoStepWritesMemory : Prop :=
  (∀ s t : State, step s = .next t → t.dmem = s.dmem) ∧
  (∀ (s : State) (rd rs1 : Reg) (imm : Int), s.dmem = State.reset.dmem →
    ∃ t, exec (.lw rd rs1 imm) s = .next t ∧ t.x[rd.val] = 0)

/-- R75: IMEM is never mutated, so a fetch from any address gives after a step what it gave before. -/
def Obligations.EveryFetchReturnsTheLoadedWord : Prop :=
  ∀ s t : State, step s = .next t → ∀ a : Word, fetchWord t.imem a = fetchWord s.imem a

/-! ## Registers and the pc, over every instruction -/

/-- R33: x0 is 0 when a launch starts and after every instruction, an unsupported one too, whatever it was and
whatever was written, so reading register 0 gives 0. -/
def Obligations.RegisterZeroIsZeroAfterEveryInstruction : Prop :=
  (∀ prog : List Word, (State.launch prog).readReg 0 = 0) ∧
  (∀ (d : Decoded) (s : State), ∃ t, execDecoded d s = .next t ∧ t.x[0] = 0 ∧ t.readReg 0 = 0)

/-- R34: at most one register is written; only the six ALU instructions, `addi`, `lw`, `jalr` and `jal` write one,
their rd; branches and unsupported words write none. (x0 is forced to 0 in any case, R33.) -/
def Obligations.OnlyTheListedInstructionsWriteTheirRd : Prop :=
  ∀ (d : Decoded) (s t : State), execDecoded d s = .next t → ∀ r : Reg, r ≠ 0 → t.x[r.val] ≠ s.x[r.val] →
    (∃ rs1 rs2, d = .instr (.add r rs1 rs2) ∨ d = .instr (.sub r rs1 rs2) ∨ d = .instr (.slt r rs1 rs2) ∨
      d = .instr (.srl r rs1 rs2) ∨ d = .instr (.or r rs1 rs2) ∨ d = .instr (.and r rs1 rs2)) ∨
    (∃ rs1 imm, d = .instr (.addi r rs1 imm) ∨ d = .instr (.lw r rs1 imm) ∨ d = .instr (.jalr r rs1 imm)) ∨
    (∃ imm, d = .instr (.jal r imm))

/-- After a step from which the run goes on, the pc is `(pc + delta) mod 2^32`, delta being the one recorded (R39,
R156). That the sum wraps is the spec's decision D5 (log 4). -/
def Obligations.ThePcMovesByTheRecordedDelta : Prop :=
  ∀ s t : State, step s = .next t → t.status = .running → t.pc = s.pc + BitVec.ofInt 32 t.lastDelta

/-- R37: no instruction reads the pc as an operand, and it reaches a register only as the link value of `jal` and
`jalr`: the registers after any other instruction are the same from any pc. -/
def Obligations.OnlyTheLinkShowsThePcToARegister : Prop :=
  (∀ (d : Decoded) (s t u : State) (p : Word), execDecoded d s = .next t →
    execDecoded d { s with pc := p } = .next u →
    (∀ rd imm, d ≠ .instr (.jal rd imm)) → (∀ rd rs1 imm, d ≠ .instr (.jalr rd rs1 imm)) → t.x = u.x) ∧
  (∀ (s : State) (rd rs1 : Reg) (imm : Int), rd ≠ 0 →
    (∃ t, exec (.jal rd imm) s = .next t ∧ t.x[rd.val] = s.pc + 4) ∧
    (∃ t, exec (.jalr rd rs1 imm) s = .next t ∧ t.x[rd.val] = s.pc + 4))

/-- Where control transfers go (R222, R244, R260): a taken branch and `jal` move the pc by their immediate, `jalr`
to the absolute target. The wrap-around is D5 (log 4), reading the base first D6 (log 5), the target C3 (log 12). -/
def Obligations.ControlTransfersReachTheirTargets : Prop :=
  ∀ (s : State) (rd rs1 rs2 : Reg) (imm : Int),
    (∃ t, exec (.jal rd imm) s = .next t ∧ t.pc = s.pc + BitVec.ofInt 32 imm) ∧
    (∃ t, exec (.jalr rd rs1 imm) s = .next t ∧
      t.pc = (s.x[rs1.val] + BitVec.ofInt 32 imm) - ((s.x[rs1.val] + BitVec.ofInt 32 imm) &&& 1)) ∧
    (imm ≠ 0 → s.x[rs1.val] = s.x[rs2.val] →
      ∃ t, exec (.beq rs1 rs2 imm) s = .next t ∧ t.pc = s.pc + BitVec.ofInt 32 imm) ∧
    (imm ≠ 0 → s.x[rs1.val] ≠ s.x[rs2.val] →
      ∃ t, exec (.bne rs1 rs2 imm) s = .next t ∧ t.pc = s.pc + BitVec.ofInt 32 imm) ∧
    (imm ≠ 0 → s.x[rs1.val].toInt < s.x[rs2.val].toInt →
      ∃ t, exec (.blt rs1 rs2 imm) s = .next t ∧ t.pc = s.pc + BitVec.ofInt 32 imm)

/-- Every other step moves the pc to the next word (R39, R243, R301): the wrap of `pc + 4` is D5 (log 4). -/
def Obligations.OtherStepsGoToTheNextWord : Prop :=
  ∀ (s : State) (rd rs1 rs2 : Reg) (imm : Int) (w : Word),
    (∀ i ∈ [Instr.add rd rs1 rs2, .sub rd rs1 rs2, .slt rd rs1 rs2, .srl rd rs1 rs2, .or rd rs1 rs2,
      .and rd rs1 rs2, .addi rd rs1 imm, .lw rd rs1 imm],
      ∃ t, exec i s = .next t ∧ t.pc = s.pc + 4) ∧
    (∃ t, execUnsupported w s = .next t ∧ t.pc = s.pc + 4) ∧
    (s.x[rs1.val] ≠ s.x[rs2.val] → ∃ t, exec (.beq rs1 rs2 imm) s = .next t ∧ t.pc = s.pc + 4) ∧
    (s.x[rs1.val] = s.x[rs2.val] → ∃ t, exec (.bne rs1 rs2 imm) s = .next t ∧ t.pc = s.pc + 4) ∧
    (s.x[rs2.val].toInt ≤ s.x[rs1.val].toInt → ∃ t, exec (.blt rs1 rs2 imm) s = .next t ∧ t.pc = s.pc + 4)

/-! ## The instructions: that each completes in every state, its result and its frame -/

/-- R201: the sum, a carry out of bit 31 discarded. -/
def Obligations.AddWritesTheWrappedSum : Prop :=
  ∀ (s : State) (rd rs1 rs2 : Reg), ∃ t, exec (.add rd rs1 rs2) s = .next t ∧
    WroteOnly s t rd (s.x[rs1.val] + s.x[rs2.val]) ∧ WentOn s t 4

/-- R202: the difference, a borrow wrapping. -/
def Obligations.SubWritesTheWrappedDifference : Prop :=
  ∀ (s : State) (rd rs1 rs2 : Reg), ∃ t, exec (.sub rd rs1 rs2) s = .next t ∧
    WroteOnly s t rd (s.x[rs1.val] - s.x[rs2.val]) ∧ WentOn s t 4

/-- R203: 1 if the first source is less than the second, both read as signed, else 0. -/
def Obligations.SltWritesTheSignedComparison : Prop :=
  ∀ (s : State) (rd rs1 rs2 : Reg), ∃ t, exec (.slt rd rs1 rs2) s = .next t ∧
    WroteOnly s t rd (if s.x[rs1.val].toInt < s.x[rs2.val].toInt then 1 else 0) ∧ WentOn s t 4

/-- R204: the unsigned quotient by 2^shamt, shamt being x[rs2] or its low five bits as P_SRL_SHAMT says, whichever
of its values that parameter has. -/
def Obligations.SrlWritesTheLogicalShift : Prop :=
  ∀ (s : State) (rd rs1 rs2 : Reg), ∃ t, exec (.srl rd rs1 rs2) s = .next t ∧
    WroteOnly s t rd (BitVec.ofNat 32 (s.x[rs1.val].toNat / 2 ^
      (match Config.srlShamt with
        | .mask5 => s.x[rs2.val].toNat % 32
        | .full => s.x[rs2.val].toNat))) ∧ WentOn s t 4

/-- R204's corner cases: on a shift below 32 the two readings of P_SRL_SHAMT agree, so there `srl` is known
although the parameter is OPEN (log 3); from 32 on, Full gives 0 and Mask5 shifts by the amount mod 32. -/
def Obligations.SrlReadingsAgreeBelow32 : Prop :=
  ∀ a b : Word,
    (b.toNat < 32 →
      aluSrl .mask5 a b = aluSrl .full a b ∧ (aluSrl Config.srlShamt a b).toNat = a.toNat / 2 ^ b.toNat) ∧
    (32 ≤ b.toNat → aluSrl .full a b = 0) ∧
    aluSrl .mask5 a (b + 32) = aluSrl .mask5 a b

/-- R205: bit by bit, 1 where either source has a 1. -/
def Obligations.OrWritesTheBitwiseOr : Prop :=
  ∀ (s : State) (rd rs1 rs2 : Reg), ∃ t v, exec (.or rd rs1 rs2) s = .next t ∧
    (∀ k < 32, v.getLsbD k = (s.x[rs1.val].getLsbD k || s.x[rs2.val].getLsbD k)) ∧
    WroteOnly s t rd v ∧ WentOn s t 4

/-- R206: bit by bit, 1 where both sources have a 1. -/
def Obligations.AndWritesTheBitwiseAnd : Prop :=
  ∀ (s : State) (rd rs1 rs2 : Reg), ∃ t v, exec (.and rd rs1 rs2) s = .next t ∧
    (∀ k < 32, v.getLsbD k = (s.x[rs1.val].getLsbD k && s.x[rs2.val].getLsbD k)) ∧
    WroteOnly s t rd v ∧ WentOn s t 4

/-- R220: the sum with the immediate, mod 2^32. -/
def Obligations.AddiWritesTheWrappedSum : Prop :=
  ∀ (s : State) (rd rs1 : Reg) (imm : Int), ∃ t, exec (.addi rd rs1 imm) s = .next t ∧
    WroteOnly s t rd (s.x[rs1.val] + BitVec.ofInt 32 imm) ∧ WentOn s t 4

/-- R221: the word at `(x[rs1] + imm) mod 2^32`, a missing address treated as 0. -/
def Obligations.LwLoadsTheWordOrZero : Prop :=
  ∀ (s : State) (rd rs1 : Reg) (imm : Int), ∃ t, exec (.lw rd rs1 imm) s = .next t ∧
    WroteOnly s t rd
      (match s.dmem.lookup (s.x[rs1.val] + BitVec.ofInt 32 imm) with
        | some v => v
        | none => 0) ∧ WentOn s t 4

/-- R222: the link value to rd, and the delta `target - pc`. The wrap of the link and of the sum is D5 (log 4),
reading the base before the link write D6 (log 5), the absolute target C3 (log 12). -/
def Obligations.JalrLinksAndAnswersTheDeltaToTheTarget : Prop :=
  ∀ (s : State) (rd rs1 : Reg) (imm : Int), ∃ t, exec (.jalr rd rs1 imm) s = .next t ∧
    WroteOnly s t rd (s.pc + 4) ∧
    WentOn s t ((2 * ((s.x[rs1.val] + BitVec.ofInt 32 imm).toNat / 2) : Nat) - (s.pc.toNat : Int))

/-- R260: the link value to rd (nothing for rd = 0), and the immediate as the delta; an offset of 0 does not halt.
The wrap of the link is D5 (log 4). -/
def Obligations.JalLinksAndAnswersItsImmediate : Prop :=
  ∀ (s : State) (rd : Reg) (imm : Int), ∃ t, exec (.jal rd imm) s = .next t ∧
    WroteOnly s t rd (s.pc + 4) ∧ WentOn s t imm

/-- R240 with R243: `beq` falls through, is taken, or halts. -/
def Obligations.BeqBranchesOnEqual : Prop :=
  ∀ (s : State) (rs1 rs2 : Reg) (imm : Int),
    (s.x[rs1.val] ≠ s.x[rs2.val] →
      ∃ t, exec (.beq rs1 rs2 imm) s = .next t ∧ WroteNone s t ∧ WentOn s t 4) ∧
    (s.x[rs1.val] = s.x[rs2.val] → imm ≠ 0 →
      ∃ t, exec (.beq rs1 rs2 imm) s = .next t ∧ WroteNone s t ∧ WentOn s t imm) ∧
    (s.x[rs1.val] = s.x[rs2.val] → imm = 0 →
      ∃ t, exec (.beq rs1 rs2 imm) s = .next t ∧ HaltedAt s t)

/-- R241 with R243: `bne` falls through, is taken, or halts. -/
def Obligations.BneBranchesOnNotEqual : Prop :=
  ∀ (s : State) (rs1 rs2 : Reg) (imm : Int),
    (s.x[rs1.val] = s.x[rs2.val] →
      ∃ t, exec (.bne rs1 rs2 imm) s = .next t ∧ WroteNone s t ∧ WentOn s t 4) ∧
    (s.x[rs1.val] ≠ s.x[rs2.val] → imm ≠ 0 →
      ∃ t, exec (.bne rs1 rs2 imm) s = .next t ∧ WroteNone s t ∧ WentOn s t imm) ∧
    (s.x[rs1.val] ≠ s.x[rs2.val] → imm = 0 →
      ∃ t, exec (.bne rs1 rs2 imm) s = .next t ∧ HaltedAt s t)

/-- R242 with R243: `blt`, a signed comparison, falls through, is taken, or halts. -/
def Obligations.BltBranchesOnSignedLess : Prop :=
  ∀ (s : State) (rs1 rs2 : Reg) (imm : Int),
    (¬ s.x[rs1.val].toInt < s.x[rs2.val].toInt →
      ∃ t, exec (.blt rs1 rs2 imm) s = .next t ∧ WroteNone s t ∧ WentOn s t 4) ∧
    (s.x[rs1.val].toInt < s.x[rs2.val].toInt → imm ≠ 0 →
      ∃ t, exec (.blt rs1 rs2 imm) s = .next t ∧ WroteNone s t ∧ WentOn s t imm) ∧
    (s.x[rs1.val].toInt < s.x[rs2.val].toInt → imm = 0 →
      ∃ t, exec (.blt rs1 rs2 imm) s = .next t ∧ HaltedAt s t)

/-- R301: an unsupported word writes no register and no memory, is reported once, and its step is recorded like any
other, with delta 4. (What the report holds is the next statement's.) -/
def Obligations.UnsupportedWordsAreReportedNoOps : Prop :=
  ∀ (s : State) (w : Word), ∃ t, execUnsupported w s = .next t ∧
    WroteNone s t ∧ MemoriesKept s t ∧
    t.trace = s.trace ++ [⟨s.pc, t.x⟩] ∧ t.lastDelta = 4 ∧ t.status = s.status ∧ t.dump = s.dump ∧
    ∃ r, t.report = s.report ++ [r]

/-- The report of an unsupported word is the pair (pc, word), of whatever admitted state fetches it: the spec's
decision D8 (log 7). No supported instruction reports anything. -/
def Obligations.TheReportHoldsThePcAndTheWord : Prop :=
  ∀ (s t : State) (w : Word), s.fetch = some w → step s = .next t →
    t.report = if decode w = .unsupported w then s.report ++ [⟨s.pc, w⟩] else s.report

/-- R115, R117: a word that no row of R113 selects is a no-op step, whatever its opcode: it stops nothing, enters
no handler, is recorded in the trace and goes to the next word. The table's values are the spec's decisions D1 to D3
(logs 1, 2), the wrap of `pc + 4` is D5 (log 4). -/
def Obligations.UnlistedWordsRunAsNoOps : Prop :=
  ∀ (s : State) (w : Word), Steppable s → s.fetch = some w → (∀ r ∈ maskRows, ¬ r.Selects w) →
    ∃ t, step s = .next t ∧ WroteNone s t ∧ MemoriesKept s t ∧ t.status = .running ∧ t.lastDelta = 4 ∧
      t.pc = s.pc + 4 ∧ t.trace = s.trace ++ [⟨s.pc, t.x⟩] ∧ t.dump = s.dump ∧
      t.report.length = s.report.length + 1

/-! ## The step and the end of a run -/

/-- The step of an admitted Running state runs the word at the pc: a decoded instruction by its meaning, any other
word as unsupported (R152, R153, R159). -/
def Obligations.StepRunsTheDecodedWord : Prop :=
  ∀ (s : State) (w : Word), Steppable s → s.fetch = some w →
    (∀ i, decode w = .instr i → step s = exec i s) ∧
    (∀ v, decode w = .unsupported v → step s = execUnsupported v s)

/-- A fetch that finds no instruction ends the run (R151): status Exhausted, no instruction executes (registers, pc,
memories, lastDelta and report log as they were), no line but the final one of R157, and the dump of R158. That the
final line's `pc - lastDelta` wraps is the spec's decision D5, a choice in this model (log 4). -/
def Obligations.AFetchThatFindsNothingEndsTheRun : Prop :=
  ∀ s : State, Steppable s → s.fetch = none →
    ∃ t, step s = .next t ∧ t.status = .exhausted ∧ t.x = s.x ∧ t.pc = s.pc ∧ t.dmem = s.dmem ∧
      t.imem = s.imem ∧ t.lastDelta = s.lastDelta ∧ t.report = s.report ∧
      t.trace = s.trace ++ [⟨s.pc - BitVec.ofInt 32 s.lastDelta, s.x⟩] ∧ t.dump = some s.dmem.cells

/-- R155: a step halts exactly on the halt idiom, and it changes nothing but the status and the outputs: the
registers, the pc, lastDelta and both memories stay, and only the final line is recorded. -/
def Obligations.TheHaltingStepChangesNothing : Prop :=
  (∀ s t : State, step s = .next t → t.status = .halted → HaltIdiom s ∧ HaltedAt s t) ∧
  (∀ s : State, Steppable s → HaltIdiom s → ∃ t, step s = .next t ∧ HaltedAt s t)

/-- The final line's pc on both exits (R157): the branch's own address when the run halts, and `pc - lastDelta` when
it is exhausted. That this difference wraps is the spec's decision D5, a choice in this model (log 4). -/
def Obligations.TheFinalLineOfBothExits : Prop :=
  ∀ s t : State, step s = .next t →
    (t.status = .halted → ∃ l, t.trace = s.trace ++ [l] ∧ l.x = t.x ∧ l.pc = t.pc ∧ t.pc = s.pc) ∧
    (t.status = .exhausted → ∃ l, t.trace = s.trace ++ [l] ∧ l.x = t.x ∧
      l.pc = t.pc - BitVec.ofInt 32 t.lastDelta ∧ t.lastDelta = s.lastDelta)

/-- On the exhausted path the final line repeats the last recorded line exactly (derived in R157): of every state
with the invariant in which at least one line is recorded. -/
def Obligations.ExhaustionRepeatsTheLastLine : Prop :=
  ∀ s t : State, Inv s → s.trace ≠ [] → step s = .next t → t.status = .exhausted →
    ∃ l, s.trace.getLast? = some l ∧ t.trace = s.trace ++ [l]

/-- The dump (R158). A step that ends the run outputs it: strictly ascending, with exactly one entry `(a, DMEM(a))`
for each mapped address. That every run of a launch that ends dumps the 32 words of 0 from 0x00010000 to 0x0001007C is
what R158 itself derives from R63 and R65, on literals that the spec flags as unaudited (log 18). -/
def Obligations.TheDumpListsEveryMappedWordOnce : Prop :=
  (∀ s t : State, s.dmem.wf = true → step s = .next t → Ended t →
    ∃ d, t.dump = some d ∧ d.Pairwise (fun c e => c.1 < e.1) ∧
      (∀ (a v : Word), (a.toNat, v) ∈ d ↔ t.dmem.lookup a = some v) ∧
      (∀ c ∈ d, c.1 < 2 ^ 32)) ∧
  (∀ (prog : List Word) (k : Nat) (t : State), run k (State.launch prog) = .next t → Ended t →
    t.dump = some ((List.range 32).map (fun n => (0x00010000 + 4 * n, (0 : Word)))))

/-- R45: a launch starts Running, and only a Running state steps (so an ended run keeps its status); the status
becomes Halted exactly by a taken branch with immediate 0 and Exhausted exactly by a fetch that finds no
instruction. -/
def Obligations.TheStatusChangesOnlyAsTheRunEnds : Prop :=
  (∀ prog : List Word, (State.launch prog).status = .running) ∧
  (∀ s t : State, step s = .next t → s.status = .running ∧
    (t.status = .halted ↔ HaltIdiom s) ∧
    (t.status = .exhausted ↔ s.fetch = none))

/-- R45: "no further step is taken" of an ended run. That the model answers the stop runEnded, not a state, is its
own form (log 15). -/
def Obligations.AnEndedRunTakesNoStep : Prop :=
  ∀ s : State, Ended s → step s = .fault .runEnded

/-- No word and no data stops an admitted Running state: there is no trap, and every step answers a next state
(R300, R302, R307). -/
def Obligations.EveryAdmittedStepCompletes : Prop :=
  ∀ s : State, Steppable s → ∃ t, step s = .next t

/-- R172: the launch precondition. The loader starts exactly the valid, non-empty programs that fit, and a step of
any other launch is refused (D10, D15; log 9). -/
def Obligations.OnlyAdmittedLaunchesRun : Prop :=
  (∀ (lines : List (List Char)) (s : State), boot lines = .ok s ↔
    ∃ prog, parseProgram lines = some prog ∧ 1 ≤ prog.length ∧ prog.length ≤ 2 ^ 30 - 1 ∧ s = State.launch prog) ∧
  (∀ s : State, s.status = .running → ¬ (1 ≤ s.imem.length ∧ s.imem.length ≤ 2 ^ 30 - 1) →
    step s = .refused .launchRefused)

/-- A line is read most significant bit first, and a word's own 32-character numeral gives the word back (R66,
R170, R171; D9, log 8). -/
def Obligations.ParsingABinaryLineGivesItsWord : Prop :=
  ∀ w : Word, parseLine (binaryText w) = some w ∧ isBlank (binaryText w) = false ∧ (binaryText w).length = 32

/-- Blank lines produce no instruction and a malformed line refuses the whole launch (R170, R304; log 8). -/
def Obligations.TheLoaderSkipsBlankLinesAndFailsFast : Prop :=
  ∀ lines : List (List Char),
    parseProgram lines =
      if ∃ l ∈ lines, isBlank l = false ∧ parseLine l = none then none
      else some ((lines.filter (fun l => !isBlank l)).filterMap parseLine)

/-- The text of the trace file (R171). A trace line is 33 numerals, each the radix prefix and 32 characters that read
as a word, a space between two. A dump address is eight upper-case hexadecimal digits that write the address, and a
dump line is the address prefix, the address, the separator and the value's numeral. The three strings that R171 leaves
OPEN (radix prefix, address prefix, separator) are any. Three clauses are the model's and not R171's: that the fields
are the pc and then x0 to x31 in that order is DEDUCED (log 19); that a trace line ends in `lineTrailing` and a dump
line in `dumpTrailing`, one string for each kind of line, is a DESIGN CHOICE (log 19; D16 says only "trailing
spaces"); that a numeral has its most significant bit first is the spec's decision D9 (log 8). -/
def Obligations.TraceTextHasFixedWidthNumerals : Prop :=
  (∀ (t : TraceText) (l : TraceLine),
    let p := t.radixPrefix.length
    (∀ i < 33, ∃ v, ((formatStep t l).drop (i * (p + 33))).take (p + 32) = t.radixPrefix ++ v ∧
      v.length = 32 ∧ parseLine v = (l.pc :: l.x.toList)[i]?) ∧
    (∀ i < 32, (formatStep t l)[i * (p + 33) + (p + 32)]? = some ' ') ∧
    (formatStep t l).drop (32 * (p + 33) + (p + 32)) = t.lineTrailing) ∧
  (∀ a : Nat, a < 2 ^ 32 →
    (hexText a).length = 8 ∧ (∀ c ∈ hexText a, c ∈ "0123456789ABCDEF".toList) ∧
    (hexText a).foldl (fun n c => 16 * n + "0123456789ABCDEF".toList.idxOf c) 0 = a) ∧
  (∀ (t : TraceText) (a : Nat) (w : Word), ∃ v, v.length = 32 ∧ parseLine v = some w ∧
    formatDumpLine t (a, w) =
      t.addressPrefix ++ hexText a ++ t.separator ++ (t.radixPrefix ++ v) ++ t.dumpTrailing)

/-! ## The run -/

/-- No instruction reads the trace log or the report log (R46): two states that differ only in them step alike. -/
def Obligations.TheLogsNeverInfluenceAStep : Prop :=
  ∀ (s : State) (tr : List TraceLine) (rp : List Report),
    AgreeUpTo EqualButLogs (step s) (step { s with trace := tr, report := rp })

/-- The invariant holds when an admitted launch starts (R48, R350). -/
def Obligations.ALaunchStartsInTheInvariant : Prop :=
  ∀ prog : List Word, Inv (State.launch prog)

/-- Every step keeps the invariant: x0 stays 0, DMEM keeps its form, the pc and every recorded address stay even,
the dump is output exactly at the end, and the last line is the address the pc came from. That this address is taken
mod 2^32 is the spec's decision D5, a choice in this model (log 4). -/
def Obligations.EveryStepKeepsTheInvariant : Prop :=
  ∀ s t : State, Inv s → step s = .next t → Inv t

/-- Of every program: after k steps the trace log has k lines (one for each non-halting step, and the final line in
place of the step that ended the run), and IMEM and DMEM are as loaded (R65, R75, R155 to R157). -/
def Obligations.ARunRecordsOneLineForEachStep : Prop :=
  ∀ (prog : List Word) (k : Nat) (t : State), run k (State.launch prog) = .next t →
    t.trace.length = k ∧ t.imem = prog ∧ t.dmem = State.reset.dmem

/-- R44: lastDelta's reset value is never read in an admitted launch, so no output of a run depends on it: two runs
from launches that differ only in it stop alike, or agree on everything but it. (The model's reset value 0 is a
DESIGN CHOICE, log 10: no claim rests on it.) -/
def Obligations.TheResetLastDeltaIsNeverObserved : Prop :=
  ∀ (prog : List Word) (d : Int) (k : Nat), launchOk prog = true →
    AgreeUpTo EqualButLastDelta (run k (State.launch prog)) (run k { State.launch prog with lastDelta := d })

/-- A run only appends to its logs: the trace and the reports of a state are a beginning of those of the state k
steps later (R46: "append-only"). -/
def Obligations.TheLogsAreAppendOnly : Prop :=
  ∀ (s t : State) (k : Nat), run k s = .next t →
    s.trace <+: t.trace ∧ s.report <+: t.report

/-- Placing a word for the host makes the very next step fetch it, in a Running, admitted state, with every
register and DMEM unchanged (the model's own operation, log 20). -/
def Obligations.APlacedWordIsFetchedNext : Prop :=
  ∀ (s : State) (nbits w : Nat),
    let t := s.withFetchWord nbits w
    Steppable t ∧ t.fetch = some (BitVec.ofNat 32 (w % 2 ^ nbits)) ∧ t.x = s.x ∧ t.dmem = s.dmem ∧
      (s.pc.toNat % 4 = 0 → s.pc ≠ 0 → t.pc = s.pc)
end

