-- ==== Sys2Proof/Laws/Decode.lean ====
section
/-! SUPPORT. The codec in plain arithmetic: a field is a quotient and a remainder, a sign extension a comparison,
so that statements about encodings come down to linear arithmetic. -/

namespace Sys2Proof

theorem extractField_eq (w : Word) (lowBit width : Nat) :
    extractField w lowBit width = w.toNat / 2 ^ lowBit % 2 ^ width := by
  rw [extractField, Nat.shiftRight_eq_div_pow, Nat.and_two_pow_sub_one_eq_mod]

theorem extractField_lt (w : Word) (lowBit width : Nat) : extractField w lowBit width < 2 ^ width := by
  rw [extractField_eq]; exact Nat.mod_lt _ (Nat.two_pow_pos _)

/-- A field reads back from a word laid out around it: A above, L below. -/
theorem field_of_parts {x A B L k n : Nat} (hx : x = (A * 2 ^ n + B) * 2 ^ k + L) (hL : L < 2 ^ k)
    (hB : B < 2 ^ n) : x / 2 ^ k % 2 ^ n = B := by
  rw [hx, Nat.mul_comm, Nat.mul_add_div (Nat.two_pow_pos k), Nat.div_eq_of_lt hL, Nat.add_zero,
    Nat.mul_comm A, Nat.mul_add_mod, Nat.mod_eq_of_lt hB]

/-- The top bit of an n-bit value is set exactly from 2^(n-1) on. -/
theorem testBit_top {v n : Nat} (hn : 0 < n) (hv : v < 2 ^ n) : v.testBit (n - 1) = decide (2 ^ (n - 1) ≤ v) := by
  obtain ⟨k, rfl⟩ : ∃ k, n = k + 1 := ⟨n - 1, by omega⟩
  rw [Nat.add_sub_cancel, Nat.testBit_eq_decide_div_mod_eq]
  have h2 : v / 2 ^ k < 2 := Nat.div_lt_of_lt_mul (by rw [Nat.pow_succ] at hv; omega)
  by_cases h : 2 ^ k ≤ v
  · have : 1 ≤ v / 2 ^ k := (Nat.one_le_div_iff (Nat.two_pow_pos k)).2 h
    have : v / 2 ^ k = 1 := by omega
    simp [this, h]
  · have : v / 2 ^ k = 0 := Nat.div_eq_of_lt (by omega)
    simp [this, h]

/-- R102, as a comparison. -/
theorem signExtend_eq {v n : Nat} (hn : 0 < n) (hv : v < 2 ^ n) :
    signExtend v n = if 2 ^ (n - 1) ≤ v then (v : Int) - 2 ^ n else (v : Int) := by
  simp [signExtend, testBit_top hn hv]

/-- A quotient, split at the next field boundary. -/
theorem div_split (x k m : Nat) : x / k = x / (k * m) * m + x / k % m := by
  rw [← Nat.div_div_eq_div_mul]; exact (Nat.div_add_mod' _ _).symm

/-- A word is its J-format fields (R103), put back in place. -/
theorem recompose_J (x : Nat) :
    x / 2147483648 * 2147483648 + x / 2097152 % 1024 * 2097152 + x / 1048576 % 2 * 1048576
      + x / 4096 % 256 * 4096 + x / 128 % 32 * 128 + x % 128 = x := by
  have r1 : x = x / 128 * 128 + x % 128 := (Nat.div_add_mod' _ _).symm
  have r2 : x / 128 = x / 4096 * 32 + x / 128 % 32 := div_split x 128 32
  have r3 : x / 4096 = x / 1048576 * 256 + x / 4096 % 256 := div_split x 4096 256
  have r4 : x / 1048576 = x / 2097152 * 2 + x / 1048576 % 2 := div_split x 1048576 2
  have r5 : x / 2097152 = x / 2147483648 * 1024 + x / 2097152 % 1024 := div_split x 2097152 1024
  generalize x / 2147483648 = a at *
  generalize x / 2097152 % 1024 = a1 at *
  generalize x / 1048576 % 2 = a2 at *
  generalize x / 4096 % 256 = a3 at *
  generalize x / 128 % 32 = a4 at *
  generalize x % 128 = a5 at *
  generalize x / 2097152 = b1 at *
  generalize x / 1048576  = b2 at *
  generalize x / 4096 = b3 at *
  generalize x / 128  = b4 at *
  omega

/-- A word is its B-format fields (R103), put back in place. -/
theorem recompose_B (x : Nat) :
    x / 2147483648 * 2147483648 + x / 33554432 % 64 * 33554432 + x / 1048576 % 32 * 1048576
      + x / 32768 % 32 * 32768 + x / 4096 % 8 * 4096 + x / 256 % 16 * 256 + x / 128 % 2 * 128
      + x % 128 = x := by
  have r1 : x = x / 128 * 128 + x % 128 := (Nat.div_add_mod' _ _).symm
  have r2 : x / 128 = x / 256 * 2 + x / 128 % 2 := div_split x 128 2
  have r3 : x / 256 = x / 4096 * 16 + x / 256 % 16 := div_split x 256 16
  have r4 : x / 4096 = x / 32768 * 8 + x / 4096 % 8 := div_split x 4096 8
  have r5 : x / 32768 = x / 1048576 * 32 + x / 32768 % 32 := div_split x 32768 32
  have r6 : x / 1048576 = x / 33554432 * 32 + x / 1048576 % 32 := div_split x 1048576 32
  have r7 : x / 33554432 = x / 2147483648 * 64 + x / 33554432 % 64 := div_split x 33554432 64
  generalize x / 2147483648 = a at *
  generalize x / 33554432 % 64 = a1 at *
  generalize x / 1048576 % 32 = a2 at *
  generalize x / 32768 % 32 = a3 at *
  generalize x / 4096 % 8 = a4 at *
  generalize x / 256 % 16 = a5 at *
  generalize x / 128 % 2 = a6 at *
  generalize x % 128 = a7 at *
  generalize x / 33554432 = b1 at *
  generalize x / 1048576  = b2 at *
  generalize x / 32768  = b3 at *
  generalize x / 4096 = b4 at *
  generalize x / 256 = b5 at *
  generalize x / 128  = b6 at *
  omega

/-- The pattern of a sign-extended field is the field: the encoder inverts R102. -/
theorem immPattern_signExtend {n v : Nat} (hn : 0 < n) (hv : v < 2 ^ n) : immPattern n (signExtend v n) = v := by
  have hvv : (v : Int) % 2 ^ n = v := Int.emod_eq_of_lt (by omega) (by exact_mod_cast hv)
  rw [immPattern, signExtend_eq hn hv]
  split
  · rw [Int.sub_emod_right, hvv]; simp
  · rw [hvv]; simp

theorem regField_val (w : Word) (lowBit : Nat) : (regField w lowBit).val = w.toNat / 2 ^ lowBit % 32 := by
  have h := extractField_lt w lowBit 5
  have : (regField w lowBit).val = extractField w lowBit 5 % 32 := rfl
  rw [this, Nat.mod_eq_of_lt (by simpa using h), extractField_eq]
  norm_num

theorem immI_eq (w : Word) :
    immI w = if 2 ^ 11 ≤ w.toNat / 2 ^ 20 then (w.toNat / 2 ^ 20 : Int) - 2 ^ 12 else (w.toNat / 2 ^ 20 : Int) := by
  have h := w.isLt
  rw [immI, signExtend_eq (by omega) (extractField_lt _ _ _), extractField_eq]
  have : w.toNat / 2 ^ 20 % 2 ^ 12 = w.toNat / 2 ^ 20 := Nat.mod_eq_of_lt (by omega)
  rw [this]
  push_cast
  rfl

/-- The B immediate's 13 bits, before the sign extension (R109). -/
theorem immB_eq (w : Word) :
    immB w = signExtend (w.toNat / 2 ^ 31 * 2 ^ 12 + w.toNat / 2 ^ 7 % 2 * 2 ^ 11
      + w.toNat / 2 ^ 25 % 2 ^ 6 * 2 ^ 5 + w.toNat / 2 ^ 8 % 2 ^ 4 * 2) 13 := by
  have h := w.isLt
  have : w.toNat / 2 ^ 31 % 2 = w.toNat / 2 ^ 31 := Nat.mod_eq_of_lt (by omega)
  simp only [immB, extractField_eq, Nat.pow_one, this]

/-- The J immediate's 21 bits, before the sign extension (R110). -/
theorem immJ_eq (w : Word) :
    immJ w = signExtend (w.toNat / 2 ^ 31 * 2 ^ 20 + w.toNat / 2 ^ 12 % 2 ^ 8 * 2 ^ 12
      + w.toNat / 2 ^ 20 % 2 * 2 ^ 11 + w.toNat / 2 ^ 21 % 2 ^ 10 * 2) 21 := by
  have h := w.isLt
  have : w.toNat / 2 ^ 31 % 2 = w.toNat / 2 ^ 31 := Nat.mod_eq_of_lt (by omega)
  simp only [immJ, extractField_eq, Nat.pow_one, this]

end Sys2Proof
end

