-- ==== Sys2Proof/Laws/Memory.lean ====
section
/-! SUPPORT. The data memory keeps its canonical form, and a lookup reads what the list holds. -/

namespace Sys2Proof.Machine

theorem ascending_cons (c : Nat × Word) (rest : List (Nat × Word)) :
    ascending (c :: rest) = true ↔ (∀ d ∈ rest, c.1 < d.1) ∧ ascending rest = true := by
  simp [ascending]

theorem ascending_iff_pairwise (cells : List (Nat × Word)) :
    ascending cells = true ↔ cells.Pairwise (fun c d => c.1 < d.1) := by
  induction cells with
  | nil => simp [ascending]
  | cons c rest ih => rw [ascending_cons, List.pairwise_cons, ih]

theorem Memory.wf_iff (m : Memory) :
    m.wf = true ↔ ascending m.cells = true ∧ ∀ c ∈ m.cells, c.1 < 2 ^ 32 := by
  simp [Memory.wf]

theorem mem_insertCell {cells : List (Nat × Word)} {a : Nat} {v : Word} {c : Nat × Word}
    (h : c ∈ insertCell cells a v) : c = (a, v) ∨ c ∈ cells := by
  induction cells with
  | nil => simpa [insertCell] using h
  | cons d rest ih =>
    simp only [insertCell] at h
    split at h
    · simpa using h
    · split at h
      · rcases List.mem_cons.1 h with h | h
        · exact .inl h
        · exact .inr (List.mem_cons_of_mem _ h)
      · rcases List.mem_cons.1 h with h | h
        · exact .inr (h ▸ List.mem_cons_self)
        · rcases ih h with h | h
          · exact .inl h
          · exact .inr (List.mem_cons_of_mem _ h)

theorem insertCell_ascending {cells : List (Nat × Word)} (h : ascending cells = true) (a : Nat) (v : Word) :
    ascending (insertCell cells a v) = true := by
  induction cells with
  | nil => rfl
  | cons d rest ih =>
    obtain ⟨hd, hr⟩ := (ascending_cons d rest).1 h
    simp only [insertCell]
    split
    · rename_i hlt
      refine (ascending_cons _ _).2 ⟨?_, h⟩
      intro e he
      rcases List.mem_cons.1 he with rfl | he
      · exact hlt
      · exact Nat.lt_trans hlt (hd e he)
    · split
      · rename_i heq
        exact (ascending_cons _ _).2 ⟨fun e he => heq ▸ hd e he, hr⟩
      · refine (ascending_cons _ _).2 ⟨?_, ih hr⟩
        intro e he
        rcases mem_insertCell he with rfl | he
        · show d.1 < a; omega
        · exact hd e he

/-- The one operation that writes DMEM keeps its form (it is unused, R65). -/
theorem Memory.write_wf {m : Memory} (h : m.wf = true) (addr v : Word) : (m.write addr v).wf = true := by
  obtain ⟨ha, hb⟩ := m.wf_iff.1 h
  refine (Memory.wf_iff _).2 ⟨insertCell_ascending ha _ v, ?_⟩
  intro c hc
  rcases mem_insertCell hc with rfl | hc
  · exact addr.isLt
  · exact hb c hc

/-- DMEM has its form at reset (R48). -/
theorem resetDmem_wf : resetDmem.wf = true := by decide

theorem lookupCell_none_iff (cells : List (Nat × Word)) (a : Nat) :
    lookupCell cells a = none ↔ ∀ v, (a, v) ∉ cells := by
  induction cells with
  | nil => simp [lookupCell]
  | cons c rest ih =>
    simp only [lookupCell]
    split
    · rename_i h
      simp only [reduceCtorEq, false_iff, not_forall, not_not]
      exact ⟨c.2, by subst h; exact List.mem_cons_self⟩
    · rename_i h
      rw [ih]
      refine forall_congr' fun v => ?_
      simp only [List.mem_cons, not_or]
      exact ⟨fun hv => ⟨fun e => h (by rw [← e]), hv⟩, fun hv => hv.2⟩

/-- In a list of the canonical form, a lookup answers exactly the listed word. -/
theorem lookupCell_some_iff {cells : List (Nat × Word)} (h : ascending cells = true) (a : Nat) (v : Word) :
    lookupCell cells a = some v ↔ (a, v) ∈ cells := by
  induction cells with
  | nil => simp [lookupCell]
  | cons c rest ih =>
    obtain ⟨hc, hr⟩ := (ascending_cons c rest).1 h
    simp only [lookupCell, List.mem_cons]
    split
    · rename_i he
      constructor
      · intro hv; exact .inl (by rw [← he, ← Option.some.inj hv])
      · rintro (hv | hv)
        · rw [← hv]
        · exact absurd (hc _ hv) (by simp [he])
    · rename_i he
      rw [ih hr]
      exact ⟨.inr, fun hv => hv.resolve_left fun e => he (by rw [← e])⟩

/-- An address outside the list reads as 0 (R64). -/
theorem Memory.read_of_lookup_none {m : Memory} {a : Word} (h : m.lookup a = none) : m.read a = 0 := by
  simp [Memory.read, h, unmappedRead]

theorem Memory.read_of_lookup_some {m : Memory} {a v : Word} (h : m.lookup a = some v) : m.read a = v := by
  simp [Memory.read, h]

end Sys2Proof.Machine
end

