-- ==== Sys2Proof/Laws/State.lean ====
section
/-! SUPPORT. One lemma per field of State and per update, so that no later proof unfolds a record update. -/

namespace Sys2Proof.Machine


/-! ## writeReg (R15) -/

@[simp] theorem State.writeReg_x (s : State) (r : Reg) (v : Word) :
    (s.writeReg r v).x = s.x.set r.val v := rfl
@[simp] theorem State.writeReg_pc (s : State) (r : Reg) (v : Word) :
    (s.writeReg r v).pc = s.pc := rfl
@[simp] theorem State.writeReg_dmem (s : State) (r : Reg) (v : Word) :
    (s.writeReg r v).dmem = s.dmem := rfl
@[simp] theorem State.writeReg_imem (s : State) (r : Reg) (v : Word) :
    (s.writeReg r v).imem = s.imem := rfl
@[simp] theorem State.writeReg_lastDelta (s : State) (r : Reg) (v : Word) :
    (s.writeReg r v).lastDelta = s.lastDelta := rfl
@[simp] theorem State.writeReg_status (s : State) (r : Reg) (v : Word) :
    (s.writeReg r v).status = s.status := rfl
@[simp] theorem State.writeReg_trace (s : State) (r : Reg) (v : Word) :
    (s.writeReg r v).trace = s.trace := rfl
@[simp] theorem State.writeReg_report (s : State) (r : Reg) (v : Word) :
    (s.writeReg r v).report = s.report := rfl
@[simp] theorem State.writeReg_dump (s : State) (r : Reg) (v : Word) :
    (s.writeReg r v).dump = s.dump := rfl

/-! ## writeback (R154) -/

@[simp] theorem State.writeback_pc (s : State) (write : Option (Reg × Word)) :
    (s.writeback write).pc = s.pc := by cases write <;> rfl
@[simp] theorem State.writeback_dmem (s : State) (write : Option (Reg × Word)) :
    (s.writeback write).dmem = s.dmem := by cases write <;> rfl
@[simp] theorem State.writeback_imem (s : State) (write : Option (Reg × Word)) :
    (s.writeback write).imem = s.imem := by cases write <;> rfl
@[simp] theorem State.writeback_lastDelta (s : State) (write : Option (Reg × Word)) :
    (s.writeback write).lastDelta = s.lastDelta := by cases write <;> rfl
@[simp] theorem State.writeback_status (s : State) (write : Option (Reg × Word)) :
    (s.writeback write).status = s.status := by cases write <;> rfl
@[simp] theorem State.writeback_trace (s : State) (write : Option (Reg × Word)) :
    (s.writeback write).trace = s.trace := by cases write <;> rfl
@[simp] theorem State.writeback_report (s : State) (write : Option (Reg × Word)) :
    (s.writeback write).report = s.report := by cases write <;> rfl
@[simp] theorem State.writeback_dump (s : State) (write : Option (Reg × Word)) :
    (s.writeback write).dump = s.dump := by cases write <;> rfl

/-! ## advance (R156) -/

@[simp] theorem State.advance_x (s : State) (delta : Int) : (s.advance delta).x = s.x := rfl
@[simp] theorem State.advance_pc (s : State) (delta : Int) :
    (s.advance delta).pc = Word.wrap (s.pc.uval + delta) := rfl
@[simp] theorem State.advance_dmem (s : State) (delta : Int) :
    (s.advance delta).dmem = s.dmem := rfl
@[simp] theorem State.advance_imem (s : State) (delta : Int) :
    (s.advance delta).imem = s.imem := rfl
@[simp] theorem State.advance_lastDelta (s : State) (delta : Int) :
    (s.advance delta).lastDelta = delta := rfl
@[simp] theorem State.advance_status (s : State) (delta : Int) :
    (s.advance delta).status = s.status := rfl
@[simp] theorem State.advance_trace (s : State) (delta : Int) :
    (s.advance delta).trace = s.trace ++ [⟨s.pc, s.x⟩] := rfl
@[simp] theorem State.advance_report (s : State) (delta : Int) :
    (s.advance delta).report = s.report := rfl
@[simp] theorem State.advance_dump (s : State) (delta : Int) :
    (s.advance delta).dump = s.dump := rfl

/-! ## endOfRun (R157, R158) -/

@[simp] theorem State.endOfRun_x (s : State) (status : Status) : (s.endOfRun status).x = s.x := rfl
@[simp] theorem State.endOfRun_pc (s : State) (status : Status) :
    (s.endOfRun status).pc = s.pc := rfl
@[simp] theorem State.endOfRun_dmem (s : State) (status : Status) :
    (s.endOfRun status).dmem = s.dmem := rfl
@[simp] theorem State.endOfRun_imem (s : State) (status : Status) :
    (s.endOfRun status).imem = s.imem := rfl
@[simp] theorem State.endOfRun_lastDelta (s : State) (status : Status) :
    (s.endOfRun status).lastDelta = s.lastDelta := rfl
@[simp] theorem State.endOfRun_status (s : State) (status : Status) :
    (s.endOfRun status).status = status := rfl
@[simp] theorem State.endOfRun_report (s : State) (status : Status) :
    (s.endOfRun status).report = s.report := rfl
@[simp] theorem State.endOfRun_dump (s : State) (status : Status) :
    (s.endOfRun status).dump = some s.dmem.cells := rfl
@[simp] theorem State.endOfRun_halted_trace (s : State) :
    (s.endOfRun .halted).trace = s.trace ++ [⟨s.pc, s.x⟩] := rfl
@[simp] theorem State.endOfRun_exhausted_trace (s : State) :
    (s.endOfRun .exhausted).trace = s.trace ++ [⟨Word.wrap (s.pc.uval - s.lastDelta), s.x⟩] := rfl

/-! ## raiseUnsupported (R301) -/

@[simp] theorem State.raiseUnsupported_x (s : State) (w : Word) :
    (s.raiseUnsupported w).x = s.x := rfl
@[simp] theorem State.raiseUnsupported_pc (s : State) (w : Word) :
    (s.raiseUnsupported w).pc = s.pc := rfl
@[simp] theorem State.raiseUnsupported_dmem (s : State) (w : Word) :
    (s.raiseUnsupported w).dmem = s.dmem := rfl
@[simp] theorem State.raiseUnsupported_imem (s : State) (w : Word) :
    (s.raiseUnsupported w).imem = s.imem := rfl
@[simp] theorem State.raiseUnsupported_lastDelta (s : State) (w : Word) :
    (s.raiseUnsupported w).lastDelta = s.lastDelta := rfl
@[simp] theorem State.raiseUnsupported_status (s : State) (w : Word) :
    (s.raiseUnsupported w).status = s.status := rfl
@[simp] theorem State.raiseUnsupported_trace (s : State) (w : Word) :
    (s.raiseUnsupported w).trace = s.trace := rfl
@[simp] theorem State.raiseUnsupported_report (s : State) (w : Word) :
    (s.raiseUnsupported w).report = s.report ++ [⟨s.pc, w⟩] := rfl
@[simp] theorem State.raiseUnsupported_dump (s : State) (w : Word) :
    (s.raiseUnsupported w).dump = s.dump := rfl

/-! ## launch (R48) -/

@[simp] theorem State.launch_x (prog : List Word) : (State.launch prog).x = State.reset.x := rfl
@[simp] theorem State.launch_pc (prog : List Word) : (State.launch prog).pc = State.reset.pc := rfl
@[simp] theorem State.launch_dmem (prog : List Word) :
    (State.launch prog).dmem = State.reset.dmem := rfl
@[simp] theorem State.launch_imem (prog : List Word) : (State.launch prog).imem = prog := rfl
@[simp] theorem State.launch_lastDelta (prog : List Word) :
    (State.launch prog).lastDelta = State.reset.lastDelta := rfl
@[simp] theorem State.launch_status (prog : List Word) :
    (State.launch prog).status = State.reset.status := rfl
@[simp] theorem State.launch_trace (prog : List Word) :
    (State.launch prog).trace = State.reset.trace := rfl
@[simp] theorem State.launch_report (prog : List Word) :
    (State.launch prog).report = State.reset.report := rfl
@[simp] theorem State.launch_dump (prog : List Word) :
    (State.launch prog).dump = State.reset.dump := rfl

end Sys2Proof.Machine
end

