-- ==== Sys2Proof/Laws/Word.lean ====
section
/-! SUPPORT. The word's readings and the ALU's values as bit-vector arithmetic. -/

namespace Sys2Proof

theorem Word.sval_eq_toInt (v : Word) : v.sval = v.toInt := by
  unfold Word.sval
  rw [BitVec.toInt_eq_msb_cond, BitVec.msb_eq_getLsbD_last]
  simp

@[simp] theorem Word.ofInt_uval (v : Word) : BitVec.ofInt 32 v.uval = v := by
  simp [Word.uval]

theorem Word.wrap_uval_add (v : Word) (e : Int) : Word.wrap (v.uval + e) = v + BitVec.ofInt 32 e := by
  rw [Word.wrap, BitVec.ofInt_add, Word.ofInt_uval]

theorem Word.wrap_uval_sub (v : Word) (e : Int) : Word.wrap (v.uval - e) = v - BitVec.ofInt 32 e := by
  rw [Int.sub_eq_add_neg, Word.wrap_uval_add, BitVec.ofInt_neg, BitVec.sub_eq_add_neg]

/-- Going back by the delta the pc just moved by reaches the pc it came from (R157). -/
theorem Word.wrap_back (v : Word) (e : Int) : Word.wrap ((Word.wrap (v.uval + e)).uval - e) = v := by
  rw [Word.wrap_uval_sub, Word.wrap_uval_add, BitVec.add_sub_cancel]

namespace Machine

theorem aluAdd_eq (a b : Word) : aluAdd a b = a + b := by
  rw [aluAdd, Word.wrap_uval_add, Word.ofInt_uval]

theorem aluSub_eq (a b : Word) : aluSub a b = a - b := by
  rw [aluSub, Word.wrap_uval_sub, Word.ofInt_uval]

theorem condLt_eq (a b : Word) : condLt a b = decide (a.toInt < b.toInt) := by
  simp [condLt, Word.sval_eq_toInt]

theorem aluSlt_eq (a b : Word) : aluSlt a b = if a.toInt < b.toInt then 1 else 0 := by
  simp [aluSlt, condWord, condLt_eq]

theorem srlAmount_mask5 (b : Word) : srlAmount .mask5 b = b.toNat % 32 :=
  Nat.and_two_pow_sub_one_eq_mod b.toNat 5

theorem srlAmount_full (b : Word) : srlAmount .full b = b.toNat := rfl

theorem aluSrl_toNat (p : SrlShamt) (a b : Word) :
    (aluSrl p a b).toNat = a.toNat / 2 ^ srlAmount p b := by
  simp [aluSrl, Nat.shiftRight_eq_div_pow]

end Machine

end Sys2Proof
end

