-- ==== Sys2Proof/Laws/Ops.lean ====
section
/-! SUPPORT. One lemma for each shared operation, saying everything it does, and the inversion of a step: later
proofs cite these and unfold no meaning. -/

namespace Sys2Proof.Machine

/-! ## Registers -/

theorem State.writeback_none_reg (s : State) (r : Reg) :
    (s.writeback none).x[r.val] = if r = 0 then 0 else s.x[r.val] := by
  by_cases h : r = 0
  · subst h; simp [State.writeback]
  · have : (0 : Nat) ≠ r.val := fun e => h (Fin.ext e.symm)
    simp [State.writeback, h, this]

theorem State.writeback_some_reg (s : State) (rd r : Reg) (v : Word) :
    (s.writeback (some (rd, v))).x[r.val] =
      if r = 0 then 0 else if r = rd then v else s.x[r.val] := by
  by_cases h : r = 0
  · subst h; simp [State.writeback]
  · have h0 : (0 : Nat) ≠ r.val := fun e => h (Fin.ext e.symm)
    by_cases hd : r = rd
    · subst hd; simp [State.writeback, h, h0]
    · have : rd.val ≠ r.val := fun e => hd (Fin.ext e.symm)
      simp [State.writeback, h, h0, hd, this]

@[simp] theorem State.writeback_zero (s : State) (write : Option (Reg × Word)) :
    (s.writeback write).x[0] = 0 := by
  cases write with
  | none => exact s.writeback_none_reg 0
  | some p => exact s.writeback_some_reg p.1 0 p.2

/-- WRITEBACK looks at the registers only. -/
theorem State.writeback_x_congr {s t : State} (h : s.x = t.x) (write : Option (Reg × Word)) :
    (s.writeback write).x = (t.writeback write).x := by
  cases write <;> simp [State.writeback, h]

/-! ## Retiring an instruction -/

theorem State.retire_goOn (s : State) (write : Option (Reg × Word)) (delta : Int) :
    s.retire ⟨write, delta, false⟩ = (s.writeback write).advance delta := rfl

theorem State.retire_halt (s : State) (write : Option (Reg × Word)) (delta : Int) :
    s.retire ⟨write, delta, true⟩ = (s.writeback write).endOfRun .halted := rfl

@[simp] theorem State.retire_x (s : State) (e : Effect) : (s.retire e).x = (s.writeback e.write).x := by
  cases h : e.halt <;> simp [State.retire, h]

@[simp] theorem State.retire_dmem (s : State) (e : Effect) : (s.retire e).dmem = s.dmem := by
  cases h : e.halt <;> simp [State.retire, h]

@[simp] theorem State.retire_imem (s : State) (e : Effect) : (s.retire e).imem = s.imem := by
  cases h : e.halt <;> simp [State.retire, h]

@[simp] theorem State.retire_report (s : State) (e : Effect) : (s.retire e).report = s.report := by
  cases h : e.halt <;> simp [State.retire, h]

/-- Either exit of an instruction records one line, of its own address and the registers after it. -/
@[simp] theorem State.retire_trace (s : State) (e : Effect) :
    (s.retire e).trace = s.trace ++ [⟨s.pc, (s.writeback e.write).x⟩] := by
  cases h : e.halt <;> simp [State.retire, h]

theorem State.retire_status (s : State) (e : Effect) :
    (s.retire e).status = if e.halt then .halted else s.status := by
  cases h : e.halt <;> simp [State.retire, h]

theorem State.retire_pc (s : State) (e : Effect) :
    (s.retire e).pc = if e.halt then s.pc else Word.wrap (s.pc.uval + e.delta) := by
  cases h : e.halt <;> simp [State.retire, h]

theorem State.retire_lastDelta (s : State) (e : Effect) :
    (s.retire e).lastDelta = if e.halt then s.lastDelta else e.delta := by
  cases h : e.halt <;> simp [State.retire, h]

theorem State.retire_dump (s : State) (e : Effect) :
    (s.retire e).dump = if e.halt then some s.dmem.cells else s.dump := by
  cases h : e.halt <;> simp [State.retire, h]

/-! ## Branch resolution (R243) -/

theorem resolve_false (imm : Int) : resolve false imm = ⟨none, 4, false⟩ := rfl

theorem resolve_taken {imm : Int} (h : imm ≠ 0) : resolve true imm = ⟨none, imm, false⟩ := by
  simp [resolve, h]

theorem resolve_halt : resolve true 0 = ⟨none, 0, true⟩ := rfl

theorem resolve_write (cond : Bool) (imm : Int) : (resolve cond imm).write = none := by
  unfold resolve; split <;> (try split) <;> rfl

theorem resolve_halts_iff (cond : Bool) (imm : Int) : (resolve cond imm).halt = true ↔ cond = true ∧ imm = 0 := by
  cases cond <;> by_cases h : imm = 0 <;> simp [resolve, h]

/-! ## What each decoded word does -/

/-- What EXECUTE answers for an instruction, read off the meanings. -/
def effectOf (i : Instr) (s : State) : Effect :=
  match i with
  | .add rd rs1 rs2 => .result rd (aluAdd (s.readReg rs1) (s.readReg rs2))
  | .sub rd rs1 rs2 => .result rd (aluSub (s.readReg rs1) (s.readReg rs2))
  | .slt rd rs1 rs2 => .result rd (aluSlt (s.readReg rs1) (s.readReg rs2))
  | .srl rd rs1 rs2 => .result rd (aluSrl Config.srlShamt (s.readReg rs1) (s.readReg rs2))
  | .or rd rs1 rs2 => .result rd (aluOr (s.readReg rs1) (s.readReg rs2))
  | .and rd rs1 rs2 => .result rd (aluAnd (s.readReg rs1) (s.readReg rs2))
  | .addi rd rs1 imm => .result rd (Word.wrap ((s.readReg rs1).uval + imm))
  | .lw rd rs1 imm => .result rd (s.dmem.read (s.basePlusOffset rs1 imm))
  | .jalr rd rs1 imm => ⟨some (rd, s.linkValue), s.deltaTo (s.jalrTarget rs1 imm), false⟩
  | .beq rs1 rs2 imm => resolve (condEq (s.readReg rs1) (s.readReg rs2)) imm
  | .bne rs1 rs2 imm => resolve (condNe (s.readReg rs1) (s.readReg rs2)) imm
  | .blt rs1 rs2 imm => resolve (condLt (s.readReg rs1) (s.readReg rs2)) imm
  | .jal rd imm => ⟨if rd = 0 then none else some (rd, s.linkValue), imm, false⟩

/-- Every instruction completes, and what it does is to retire its effect. -/
theorem exec_eq_retire (i : Instr) (s : State) : exec i s = .next (s.retire (effectOf i s)) := by
  cases i <;> rfl

theorem execUnsupported_eq_retire (w : Word) (s : State) :
    execUnsupported w s = .next ((s.raiseUnsupported w).retire ⟨none, 4, false⟩) := rfl

/-! ## Launch and fetch -/

/-- R172. -/
theorem launchOk_iff (imem : List Word) :
    launchOk imem = true ↔ 1 ≤ imem.length ∧ imem.length ≤ 2 ^ 30 - 1 :=
  ⟨fun h => of_decide_eq_true h, fun h => decide_eq_true h⟩

/-- R61: an address names the word i exactly where it is `4*(i+1)`. -/
theorem slotIndex_some_iff (a : Word) (i : Nat) : slotIndex a = some i ↔ a.toNat = 4 * (i + 1) := by
  unfold slotIndex imemBase imemStride
  split <;> simp <;> omega

/-! ## The step -/

/-- Inversion of a step that answers a state: the run was on, and either the fetch found nothing, or it found an
instruction, or it found an unsupported word. -/
theorem step_cases {s t : State} (h : step s = .next t) :
    s.status = .running ∧ launchOk s.imem = true ∧
      ((s.fetch = none ∧ t = s.exhaust) ∨
       (∃ w i, s.fetch = some w ∧ decode w = .instr i ∧ t = s.retire (effectOf i s)) ∨
       (∃ w v, s.fetch = some w ∧ decode w = .unsupported v ∧
          t = (s.raiseUnsupported v).retire ⟨none, 4, false⟩)) := by
  unfold step at h
  split at h
  · cases h
  · cases h
  · rename_i hs
    split at h
    · rename_i hl
      refine ⟨hs, hl, ?_⟩
      split at h
      · rename_i hf
        exact .inl ⟨hf, by cases h; rfl⟩
      · rename_i w hf
        cases hd : decode w with
        | instr i =>
          rw [hd, execDecoded, exec_eq_retire] at h
          exact .inr (.inl ⟨w, i, hf, hd, by cases h; rfl⟩)
        | unsupported v =>
          rw [hd, execDecoded, execUnsupported_eq_retire] at h
          exact .inr (.inr ⟨w, v, hf, hd, by cases h; rfl⟩)
    · cases h

theorem step_of_fetch {s : State} {w : Word} (hs : s.status = .running) (hl : launchOk s.imem = true)
    (hf : s.fetch = some w) : step s = execDecoded (decode w) s := by
  simp [step, hs, hl, hf]

theorem step_of_fetch_none {s : State} (hs : s.status = .running) (hl : launchOk s.imem = true)
    (hf : s.fetch = none) : step s = .next s.exhaust := by
  simp [step, hs, hl, hf]

end Sys2Proof.Machine
end

