-- ==== Sys2Proof/Laws/PerInstr.lean ====
section
/-! SUPPORT. Statements for all instructions, one lemma for each constructor. -/

namespace Sys2Proof.Laws.EncodedOpcode

open Sys2Proof

/-- The opcode class of an instruction (R112). -/
def classOf (i : Instr) : Nat :=
  match i with
  | .add _ _ _ => opRegReg
  | .sub _ _ _ => opRegReg
  | .slt _ _ _ => opRegReg
  | .srl _ _ _ => opRegReg
  | .or _ _ _ => opRegReg
  | .and _ _ _ => opRegReg
  | .addi _ _ _ => opRegImm
  | .lw _ _ _ => opLoad
  | .jalr _ _ _ => opJalr
  | .beq _ _ _ => opBranch
  | .bne _ _ _ => opBranch
  | .blt _ _ _ => opBranch
  | .jal _ _ => opJal

/-- The first level of the dispatch, on the low 7 bits of an instruction's word, finds its class (R112). -/
def Statement (i : Instr) : Prop := opcodeOf (encode i) = classOf i

theorem opcodeOf_encodeR (f7 f3 op : Nat) (h : op < 128) (rd rs1 rs2 : Reg) :
    opcodeOf (encodeR f7 f3 op rd rs1 rs2) = op := by
  rw [opcodeOf, extractField_eq, encodeR, BitVec.toNat_ofNat]; omega

theorem opcodeOf_encodeI (f3 op : Nat) (h : op < 128) (rd rs1 : Reg) (imm : Int) :
    opcodeOf (encodeI f3 op rd rs1 imm) = op := by
  rw [opcodeOf, extractField_eq, encodeI, BitVec.toNat_ofNat]; omega

theorem opcodeOf_encodeB (f3 op : Nat) (h : op < 128) (rs1 rs2 : Reg) (imm : Int) :
    opcodeOf (encodeB f3 op rs1 rs2 imm) = op := by
  rw [opcodeOf, extractField_eq, encodeB, BitVec.toNat_ofNat]; omega

theorem opcodeOf_encodeJ (op : Nat) (h : op < 128) (rd : Reg) (imm : Int) :
    opcodeOf (encodeJ op rd imm) = op := by
  rw [opcodeOf, extractField_eq, encodeJ, BitVec.toNat_ofNat]; omega

theorem add (rd rs1 rs2 : Reg) : Statement (.add rd rs1 rs2) := opcodeOf_encodeR _ _ _ (by decide) _ _ _
theorem sub (rd rs1 rs2 : Reg) : Statement (.sub rd rs1 rs2) := opcodeOf_encodeR _ _ _ (by decide) _ _ _
theorem slt (rd rs1 rs2 : Reg) : Statement (.slt rd rs1 rs2) := opcodeOf_encodeR _ _ _ (by decide) _ _ _
theorem srl (rd rs1 rs2 : Reg) : Statement (.srl rd rs1 rs2) := opcodeOf_encodeR _ _ _ (by decide) _ _ _
theorem or (rd rs1 rs2 : Reg) : Statement (.or rd rs1 rs2) := opcodeOf_encodeR _ _ _ (by decide) _ _ _
theorem and (rd rs1 rs2 : Reg) : Statement (.and rd rs1 rs2) := opcodeOf_encodeR _ _ _ (by decide) _ _ _
theorem addi (rd rs1 : Reg) (imm : Int) : Statement (.addi rd rs1 imm) := opcodeOf_encodeI _ _ (by decide) _ _ _
theorem lw (rd rs1 : Reg) (imm : Int) : Statement (.lw rd rs1 imm) := opcodeOf_encodeI _ _ (by decide) _ _ _
theorem jalr (rd rs1 : Reg) (imm : Int) : Statement (.jalr rd rs1 imm) := opcodeOf_encodeI _ _ (by decide) _ _ _
theorem beq (rs1 rs2 : Reg) (imm : Int) : Statement (.beq rs1 rs2 imm) := opcodeOf_encodeB _ _ (by decide) _ _ _
theorem bne (rs1 rs2 : Reg) (imm : Int) : Statement (.bne rs1 rs2 imm) := opcodeOf_encodeB _ _ (by decide) _ _ _
theorem blt (rs1 rs2 : Reg) (imm : Int) : Statement (.blt rs1 rs2 imm) := opcodeOf_encodeB _ _ (by decide) _ _ _
theorem jal (rd : Reg) (imm : Int) : Statement (.jal rd imm) := opcodeOf_encodeJ _ (by decide) _ _

end Sys2Proof.Laws.EncodedOpcode
end

