-- ==== Sys2Proof/Laws/Text.lean ====
section
/-! SUPPORT. The numerals of the trace file: their lengths, their digits, and where a field of a line stands. -/

namespace Sys2Proof.Machine

@[simp] theorem binaryText_length (w : Word) : (binaryText w).length = 32 := by simp [binaryText]

/-- Every character of a binary numeral is a binary digit. -/
theorem binaryText_digit {w : Word} {c : Char} (h : c ∈ binaryText w) : c = '0' ∨ c = '1' := by
  obtain ⟨i, -, rfl⟩ := List.mem_map.1 h
  split <;> simp

@[simp] theorem hexText_length (a : Nat) : (hexText a).length = 8 := by simp [hexText]

theorem hexDigit_mem {d : Nat} (h : d < 16) : hexDigit d ∈ "0123456789ABCDEF".toList := by
  interval_cases d <;> decide

theorem idxOf_hexDigit {d : Nat} (h : d < 16) : "0123456789ABCDEF".toList.idxOf (hexDigit d) = d := by
  interval_cases d <;> decide

@[simp] theorem prefixedText_length (t : TraceText) (w : Word) :
    (prefixedText t w).length = t.radixPrefix.length + 32 := by simp [prefixedText]

@[simp] theorem TraceLine.words_length (l : TraceLine) : l.words.length = 33 := by simp [TraceLine.words]

/-- Of fields of one length n with a one-character separator, the i-th starts at `i * (n + 1)`. -/
theorem drop_intercalate {sep : Char} {n : Nat} (fields : List (List Char)) (rest : List Char) (i : Nat)
    (hn : ∀ f ∈ fields, f.length = n) (hi : i < fields.length) :
    ([sep].intercalate fields ++ rest).drop (i * (n + 1)) = [sep].intercalate (fields.drop i) ++ rest := by
  induction i generalizing fields with
  | zero => simp
  | succ i ih =>
    obtain ⟨f, g, tail, rfl⟩ : ∃ f g tail, fields = f :: g :: tail := by
      match fields, hi with
      | f :: g :: tail, _ => exact ⟨f, g, tail, rfl⟩
    have hf : f.length = n := hn f (by simp)
    have hlen : (f ++ [sep]).length = n + 1 := by simp [hf]
    have key := ih (g :: tail) (fun x hx => hn x (List.mem_cons_of_mem _ hx)) (Nat.lt_of_succ_lt_succ hi)
    rw [List.intercalate_cons_cons, List.append_assoc, List.append_assoc, ← List.append_assoc f,
      show (i + 1) * (n + 1) = (n + 1) + i * (n + 1) by ring, ← List.drop_drop, ← hlen, List.drop_left, hlen, key]
    rfl

end Sys2Proof.Machine
end

