-- ==== Sys2Proof/Tests/Slice0.lean ====
section
/-! SUPPORT. The model's own tests. Every expected value is from spec/: the vectors of 95_test_vectors.md (named
W, D, E, A, I, L, J, B, JL, U in the docstrings) or a rule. A witness shows that the hypotheses of the obligation in
its name can be met together. -/

namespace Sys2Proof.Tests

open Sys2Proof Sys2Proof.Machine Sys2Proof.Safety

/-! ## Helpers -/

/-- The reset state with some registers, a pc and a one-word program at that pc (which must be a multiple of 4). -/
def at_ (pc : Nat) (regs : List (Reg × Word)) (w : Word) : State :=
  let s := regs.foldl (fun s p => s.writeReg p.1 p.2) State.reset
  { s with pc := BitVec.ofNat 32 pc, imem := placeAt [] (pc / 4 - 1) w }

/-- What a test looks at in an outcome. -/
def look {α : Type} (o : Host.Outcome State Fault Refusal) (f : State → α) : Option α :=
  match o with
  | .next t => some (f t)
  | .fault _ => none
  | .refused _ => none

/-- x3 after one step of a word at the reset entry, x1 and x2 given. -/
def x3After (w a b : Word) : Option Word := look (step (at_ 4 [(1, a), (2, b)] w)) (fun t => t.x[3])

/-- The pc and the status after one step of a word at 20, x1 and x2 given. -/
def branchAfter (w a b : Word) : Option (Word × Status) :=
  look (step (at_ 20 [(1, a), (2, b)] w)) (fun t => (t.pc, t.status))

/-! ## WellFormed: a smoke test with an ill-formed term for each check -/

/-- R108: -2048 .. 2047, in all three I-format instructions. -/
theorem test_ill_formed_immI :
    (Instr.addi 1 2 2048).wellFormed = false ∧ (Instr.addi 1 2 (-2049)).wellFormed = false ∧
    (Instr.lw 1 2 2048).wellFormed = false ∧ (Instr.lw 1 2 (-2049)).wellFormed = false ∧
    (Instr.jalr 1 2 2048).wellFormed = false ∧ (Instr.jalr 1 2 (-2049)).wellFormed = false := by decide

/-- R109: even, -4096 .. 4094, in all three branches. -/
theorem test_ill_formed_immB :
    (Instr.beq 1 2 4096).wellFormed = false ∧ (Instr.beq 1 2 (-4098)).wellFormed = false ∧
    (Instr.beq 1 2 3).wellFormed = false ∧ (Instr.bne 1 2 4096).wellFormed = false ∧
    (Instr.bne 1 2 (-1)).wellFormed = false ∧ (Instr.blt 1 2 (-4098)).wellFormed = false ∧
    (Instr.blt 1 2 1).wellFormed = false := by decide

/-- R110: even, -1048576 .. 1048574. -/
theorem test_ill_formed_immJ :
    (Instr.jal 1 1048576).wellFormed = false ∧ (Instr.jal 1 (-1048578)).wellFormed = false ∧
    (Instr.jal 1 5).wellFormed = false := by decide

/-- The ends of each range are well-formed (R108 to R110, R118). -/
theorem test_well_formed_ends :
    (Instr.addi 1 2 2047).wellFormed ∧ (Instr.lw 1 2 (-2048)).wellFormed ∧ (Instr.beq 1 2 4094).wellFormed ∧
    (Instr.blt 1 2 (-4096)).wellFormed ∧ (Instr.jal 1 1048574).wellFormed ∧
    (Instr.jal 1 (-1048576)).wellFormed := by decide

/-! ## Decoding: each constructor's word written out, field by field, from R103 and R113 -/

theorem test_decode_add :
    decode (0b0000000#7 ++ 0b00010#5 ++ 0b00001#5 ++ 0b000#3 ++ 0b00011#5 ++ 0b0110011#7) =
      .instr (.add 3 1 2) := by decide

theorem test_decode_sub :
    decode (0b0100000#7 ++ 0b00110#5 ++ 0b00101#5 ++ 0b000#3 ++ 0b00111#5 ++ 0b0110011#7) =
      .instr (.sub 7 5 6) := by decide

theorem test_decode_slt :
    decode (0b0000000#7 ++ 0b00000#5 ++ 0b01001#5 ++ 0b010#3 ++ 0b01100#5 ++ 0b0110011#7) =
      .instr (.slt 12 9 0) := by decide

theorem test_decode_srl :
    decode (0b0000000#7 ++ 0b01000#5 ++ 0b01010#5 ++ 0b101#3 ++ 0b00111#5 ++ 0b0110011#7) =
      .instr (.srl 7 10 8) := by decide

theorem test_decode_or :
    decode (0b0000000#7 ++ 0b00111#5 ++ 0b01001#5 ++ 0b110#3 ++ 0b01110#5 ++ 0b0110011#7) =
      .instr (.or 14 9 7) := by decide

theorem test_decode_and :
    decode (0b0000000#7 ++ 0b00111#5 ++ 0b01001#5 ++ 0b111#3 ++ 0b01101#5 ++ 0b0110011#7) =
      .instr (.and 13 9 7) := by decide

/-- imm[11:0] = 0x7FB. -/
theorem test_decode_addi :
    decode (0b011111111011#12 ++ 0b11111#5 ++ 0b000#3 ++ 0b00001#5 ++ 0b0010011#7) =
      .instr (.addi 1 31 2043) := by decide

/-- imm[11:0] = 0xFFC = -4. -/
theorem test_decode_lw :
    decode (0b111111111100#12 ++ 0b00010#5 ++ 0b010#3 ++ 0b00101#5 ++ 0b0000011#7) =
      .instr (.lw 5 2 (-4)) := by decide

theorem test_decode_jalr :
    decode (0b000000000011#12 ++ 0b00101#5 ++ 0b000#3 ++ 0b00110#5 ++ 0b1100111#7) =
      .instr (.jalr 6 5 3) := by decide

/-- imm[12] imm[10:5] = 0 000001, imm[4:1] imm[11] = 0100 1: 2048 + 32 + 8. -/
theorem test_decode_beq :
    decode (0b0#1 ++ 0b000001#6 ++ 0b00010#5 ++ 0b00001#5 ++ 0b000#3 ++ 0b0100#4 ++ 0b1#1 ++ 0b1100011#7) =
      .instr (.beq 1 2 2088) := by decide

/-- W-program P2's `bne x1,x0,-8`. -/
theorem test_decode_bne :
    decode (0b1#1 ++ 0b111111#6 ++ 0b00000#5 ++ 0b00001#5 ++ 0b001#3 ++ 0b1100#4 ++ 0b1#1 ++ 0b1100011#7) =
      .instr (.bne 1 0 (-8)) := by decide

/-- P6's `blt x1,x0,8`. -/
theorem test_decode_blt :
    decode (0b0#1 ++ 0b000000#6 ++ 0b00000#5 ++ 0b00001#5 ++ 0b100#3 ++ 0b0100#4 ++ 0b0#1 ++ 0b1100011#7) =
      .instr (.blt 1 0 8) := by decide

/-- imm[20] = 0, imm[10:1] = 0000001000, imm[11] = 1, imm[19:12] = 00000001: 16 + 2048 + 4096. -/
theorem test_decode_jal :
    decode (0b0#1 ++ 0b0000001000#10 ++ 0b1#1 ++ 0b00000001#8 ++ 0b00001#5 ++ 0b1101111#7) =
      .instr (.jal 1 6160) := by decide

/-- E1 to E5. -/
theorem test_decode_unsupported_funct7 :
    decode 0x00000000 = .unsupported 0x00000000 ∧ decode 0xFFFFFFFF = .unsupported 0xFFFFFFFF ∧
    decode 0x40005033 = .unsupported 0x40005033 ∧ decode 0x02208033 = .unsupported 0x02208033 ∧
    decode 0x80000033 = .unsupported 0x80000033 := by decide

/-- E6 to E11. -/
theorem test_decode_unsupported_opcode :
    decode 0x00004033 = .unsupported 0x00004033 ∧ decode 0x000000B7 = .unsupported 0x000000B7 ∧
    decode 0x00000097 = .unsupported 0x00000097 ∧ decode 0x00202023 = .unsupported 0x00202023 ∧
    decode 0x00100073 = .unsupported 0x00100073 ∧ decode 0x0000000F = .unsupported 0x0000000F := by decide

/-- E12 to E15. -/
theorem test_decode_unsupported_funct3 :
    decode 0x00001013 = .unsupported 0x00001013 ∧ decode 0x00000003 = .unsupported 0x00000003 ∧
    decode 0x00003003 = .unsupported 0x00003003 ∧ decode 0x00001067 = .unsupported 0x00001067 ∧
    decode 0x00002063 = .unsupported 0x00002063 ∧ decode 0x00005063 = .unsupported 0x00005063 := by decide

/-- E16 to E18: bits that a class does not compare are immediate. -/
theorem test_decode_immediate_bits_are_not_selects :
    decode 0x40000013 = .instr (.addi 0 0 1024) ∧ decode 0x0000706F = .instr (.jal 0 28672) ∧
    decode 0x00000013 = .instr (.addi 0 0 0) := by decide

/-- D1 to D4, D15. -/
theorem test_immI :
    immI 0x80000093 = -2048 ∧ immI 0x7FF00093 = 2047 ∧ immI 0xFFFFFFFF = -1 ∧ immI 0 = 0 ∧
    immI 0x00412283 = 4 := by decide

/-- D4 to D9. -/
theorem test_immB :
    immB 0 = 0 ∧ immB 0xFE009CE3 = -8 ∧ immB 0x7E000FE3 = 4094 ∧ immB 0x80000063 = -4096 ∧
    immB 0x000000E3 = 2048 ∧ immB 0xFFFFFFFF = -2 := by decide

/-- D4, D9 to D13. -/
theorem test_immJ :
    immJ 0 = 0 ∧ immJ 0xFFFFFFFF = -2 ∧ immJ 0x7FFFF06F = 1048574 ∧ immJ 0x8000006F = -1048576 ∧
    immJ 0x0010006F = 2048 ∧ immJ 0xFFDFF06F = -4 := by decide

/-- The encoder gives the words that 95_test_vectors.md prints for its programs. -/
theorem test_encode :
    encode (.lw 5 2 4) = 0x00412283 ∧ encode (.jalr 5 5 3) = 0x003282E7 ∧ encode (.bne 1 0 (-8)) = 0xFE009CE3 ∧
    encode (.jal 1 (-16)) = 0xFF1FF0EF ∧ encode (.sub 9 0 7) = 0x407004B3 := by decide

/-! ## One step of each instruction -/

/-- A1, A2, A3, A4: `add x3,x1,x2`. -/
theorem test_add :
    x3After 0x002081B3 0x7FFFFFFF 1 = some 0x80000000 ∧ x3After 0x002081B3 0xFFFFFFFF 2 = some 1 ∧
    x3After 0x002081B3 0xFFFFFFFF 0xFFFFFFFF = some 0xFFFFFFFE ∧
    x3After 0x002081B3 0x80000000 0x80000000 = some 0 := by decide

/-- A25, A27: a source that is also the destination; a write to x0 is discarded. -/
theorem test_add_same_register_and_x0 :
    look (step (at_ 4 [(1, 7)] 0x001080B3)) (fun t => t.x[1]) = some 14 ∧
    look (step (at_ 4 [(1, 5), (2, 6)] 0x00208033)) (fun t => t.x[0]) = some 0 := by decide

/-- A5, A6, A8: `sub x3,x1,x2`. -/
theorem test_sub :
    x3After 0x402081B3 0 1 = some 0xFFFFFFFF ∧ x3After 0x402081B3 0x80000000 1 = some 0x7FFFFFFF ∧
    x3After 0x402081B3 1 0xFFFFFFFF = some 2 := by decide

/-- A9 to A14: `slt x3,x1,x2`. -/
theorem test_slt :
    x3After 0x0020A1B3 0xFFFFFFFF 0 = some 1 ∧ x3After 0x0020A1B3 0 0xFFFFFFFF = some 0 ∧
    x3After 0x0020A1B3 0x80000000 0x7FFFFFFF = some 1 ∧ x3After 0x0020A1B3 0x7FFFFFFF 0x80000000 = some 0 ∧
    x3After 0x0020A1B3 5 5 = some 0 ∧ x3After 0x0020A1B3 0x80000000 0x80000001 = some 1 := by decide

/-- A15 to A20, each reading of P_SRL_SHAMT. -/
theorem test_srl_mask5 :
    aluSrl .mask5 0x80000000 0x1F = 1 ∧ aluSrl .mask5 0xFFFFFFFF 4 = 0x0FFFFFFF ∧
    aluSrl .mask5 0x80000000 0x20 = 0x80000000 ∧ aluSrl .mask5 0x80000000 0x21 = 0x40000000 ∧
    aluSrl .mask5 0x12345678 0xFFFFFFFF = 0 := by decide

/-- A15 to A19. (A20 under this reading is the case of `SrlReadingsAgreeBelow32` from 32 on.) -/
theorem test_srl_full :
    aluSrl .full 0x80000000 0x1F = 1 ∧ aluSrl .full 0xFFFFFFFF 0 = 0xFFFFFFFF ∧
    aluSrl .full 0x80000000 0x20 = 0 ∧ aluSrl .full 0x80000000 0x21 = 0 := by decide

/-- A21, A22: `or x3,x1,x2`. -/
theorem test_or :
    x3After 0x0020E1B3 0xF0F0F0F0 0x0F0F0F0F = some 0xFFFFFFFF ∧ x3After 0x0020E1B3 0 0 = some 0 := by decide

/-- A23, A24: `and x3,x1,x2`. -/
theorem test_and :
    x3After 0x0020F1B3 0xF0F0F0F0 0x0F0F0F0F = some 0 ∧
    x3After 0x0020F1B3 0xFFFFFFFF 0x12345678 = some 0x12345678 := by decide

/-- I1, I2, I4, I6: `addi x3,x1,imm`. -/
theorem test_addi :
    x3After 0xFFF08193 0 0 = some 0xFFFFFFFF ∧ x3After 0x00108193 0xFFFFFFFF 0 = some 0 ∧
    x3After 0x80008193 5 0 = some 0xFFFFF805 ∧ x3After 0xFFF08193 0x80000000 0 = some 0x7FFFFFFF := by decide

/-- I7 (W3): `addi x0,x0,7` leaves x0 = 0, in the register file and in the trace line. -/
theorem test_addi_x0 :
    look (step (at_ 4 [] 0x00700013)) (fun t => (t.x[0], t.trace.map (fun l => (l.pc, l.x[0])))) =
      some (0, [(4, 0)]) := by decide

/-- A mapped word is loaded, at the wrapped address (R221, R63): `lw x3,8(x1)` with x1 = 0xFFFFFFFC reads 4. -/
theorem test_lw_mapped :
    look (step { at_ 4 [(1, 0xFFFFFFFC)] 0x0080A183 with dmem := ⟨[(4, 0xCAFE)]⟩ }) (fun t => t.x[3]) =
      some 0xCAFE := by decide

/-- L3, L4 (W5): outside the window and off a word, 0, and the domain of DMEM is unchanged. -/
theorem test_lw_unmapped :
    look (step (at_ 4 [(1, 0x00010000), (3, 9)] 0x0800A183)) (fun t => (t.x[3], t.dmem)) = some (0, resetDmem) ∧
    look (step (at_ 4 [(1, 0x00010000), (3, 9)] 0x0020A183)) (fun t => (t.x[3], t.dmem)) =
      some (0, resetDmem) := by decide

/-- J7 (W6): pc = 8, x5 = 13, `jalr x5,3(x5)`: the link is 12 and the next pc 16. -/
theorem test_jalr_same_register :
    look (step (at_ 8 [(5, 13)] 0x003282E7)) (fun t => (t.x[5], t.pc)) = some (12, 16) := by decide

/-- J3, J5: `jalr x1,4(x1)` from 0xFFFFFFFF wraps and clears bit 0; `jalr x1,-4(x0)` wraps below 0. -/
theorem test_jalr_wraps :
    look (step (at_ 8 [(1, 0xFFFFFFFF)] 0x004080E7)) (fun t => (t.x[1], t.pc, t.lastDelta)) = some (12, 2, -6) ∧
    look (step (at_ 8 [] 0xFFC000E7)) (fun t => (t.pc, t.lastDelta)) = some (0xFFFFFFFC, 0xFFFFFFFC - 8) := by
  decide

/-- B1 to B4: `beq x1,x2,8` and `beq x1,x2,0`. -/
theorem test_beq :
    branchAfter 0x00208463 5 5 = some (28, .running) ∧ branchAfter 0x00208463 5 6 = some (24, .running) ∧
    branchAfter 0x00208063 5 5 = some (20, .halted) ∧ branchAfter 0x00208063 5 6 = some (24, .running) := by decide

/-- B5 to B7: `bne x1,x2,-8` and `bne x1,x2,0`. -/
theorem test_bne :
    branchAfter 0xFE209CE3 5 6 = some (12, .running) ∧ branchAfter 0xFE209CE3 5 5 = some (24, .running) ∧
    branchAfter 0x00209063 5 6 = some (20, .halted) := by decide

/-- B8, B9, B11, B12: `blt x1,x2,12` (B11's 8 read as 12: the fall-through is the same) and `blt x1,x2,0`. -/
theorem test_blt :
    branchAfter 0x0020C663 0xFFFFFFFF 0 = some (32, .running) ∧
    branchAfter 0x0020C663 0 0xFFFFFFFF = some (24, .running) ∧
    branchAfter 0x0020C663 5 5 = some (24, .running) ∧
    branchAfter 0x0020C063 0xFFFFFFFF 0 = some (20, .halted) := by decide

/-- W4, C5: the halting step's only line is the final one, of the branch's address, and the dump is output. -/
theorem test_halting_branch_outputs :
    look (step (at_ 20 [(1, 5)] 0x00108063)) (fun t => (t.trace.map (fun l => (l.pc, l.x[1])), t.dump)) =
      some ([(20, 5)], some resetDmem.cells) := by decide

/-- JL1, JL2: the link and the next pc. -/
theorem test_jal :
    look (step (at_ 8 [] 0x010000EF)) (fun t => (t.x[1], t.pc)) = some (12, 24) ∧
    look (step (at_ 8 [] 0x0080006F)) (fun t => (t.x, t.pc)) = some (resetRegs, 16) := by decide

/-- JL4, JL5: offset 0 loops and does not halt; -8 from 4 wraps. -/
theorem test_jal_zero_and_wrap :
    look (step (at_ 4 [] 0x0000006F)) (fun t => (t.pc, t.status)) = some (4, .running) ∧
    look (step (at_ 4 [] 0xFF9FF06F)) (fun t => t.pc) = some 0xFFFFFFFC := by decide

/-- U1: the report, the trace line and the registers of an unsupported word. -/
theorem test_unsupported :
    look (step (at_ 8 [(1, 3)] 0x002140B3)) (fun t => (t.report, t.x[1], t.pc, t.lastDelta, t.trace.length)) =
      some ([⟨8, 0x002140B3⟩], 3, 12, 4, 1) := by decide

/-! ## The end of a run, the loader, the text, the host's view -/

/-- JL5: the run ends as Exhausted with the final line at 4, after the jump from 4 to 0xFFFFFFFC. -/
theorem test_exhausted_final_line :
    look (run 2 (State.launch [0xFF9FF06F])) (fun t => (t.status, t.pc, t.trace.map (fun l => l.pc))) =
      some (.exhausted, 0xFFFFFFFC, [4, 4]) := by decide

/-- W1 (P1): three lines, Halted at 12, x1 = 5. -/
theorem test_end_to_end_program :
    look (run 3 (State.launch [0x000000B3, 0x00508093, 0x00108063]))
      (fun t => (t.status, t.pc, t.trace.map (fun l => (l.pc, l.x[1])))) =
      some (.halted, 12, [(4, 0), (8, 5), (12, 5)]) := by decide

/-- R45: no further step is taken. -/
theorem test_ended_run : step { State.reset with status := .halted } = .fault .runEnded := rfl

/-- R172: a launch with N = 0 is refused. -/
theorem test_empty_launch : step State.reset = .refused .launchRefused := rfl

/-- R170, R304: a blank line is skipped; a short line refuses the launch. -/
theorem test_parseProgram :
    parseProgram [[' '], "00000000010100001000000010010011".toList, []] = some [0x00508093] ∧
    parseProgram ["0000000001010000100000001001001".toList] = none := by decide

/-- R171: the eight digits of the last mapped address. -/
theorem test_hexText : hexText 0x0001007C = "0001007C".toList := by decide

/-- R171, with strings for the OPEN ones: the dump line of the last mapped address. -/
theorem test_formatDumpLine :
    formatDumpLine ⟨['0', 'b'], ['0', 'x'], [':', ' '], [], ['.']⟩ (0x0001007C, 5) =
      "0x0001007C: 0b00000000000000000000000000000101.".toList := by decide

/-- The host's question, on a row's word: the decoder gives the instruction, and the first step runs it. -/
theorem test_host_view :
    decodeTableWord 32 0x00508093 = some (.addi 1 1 5) ∧ decodeTableWord 32 0x002140B3 = none ∧
    look (step (State.reset.withFetchWord 32 0x00508093)) (fun t => (t.x[1], t.pc)) = some (5, 8) := by decide

/-! ## Witnesses: the hypotheses of each obligation can be met, each clause at a boundary -/

theorem witness_DecodeOfEncode :
    (Instr.and 31 31 31).wellFormed = true ∧ (Instr.lw 31 0 (-2048)).wellFormed = true ∧
    (Instr.blt 0 31 4094).wellFormed = true ∧ (Instr.jal 31 (-1048576)).wellFormed = true := by decide

theorem witness_EncodeOfDecode :
    decode 0x7E000FE3 = .instr (.beq 0 0 4094) ∧ decode 0x8000006F = .instr (.jal 0 (-1048576)) := by decide

theorem witness_DecodeFollowsTheMaskTable :
    (∃ r ∈ maskRows, r.Selects 0x0000706F) ∧ (∀ r ∈ maskRows, ¬ r.Selects 0x80000033) := by
  refine ⟨⟨_, List.mem_of_getElem (i := 12) (h := by decide) rfl, by unfold MaskRow.Selects; decide⟩, ?_⟩
  simp [maskRows, MaskRow.Selects]

theorem witness_ExtractFieldIsTheBitSlice : 31 + 1 ≤ 32 ∧ 0 + 32 ≤ 32 := by decide

theorem witness_SignExtendIsExactTwosComplement :
    12 ∈ [12, 13, 21] ∧ 2 ^ 12 - 1 < 2 ^ 12 ∧ 13 ∈ [12, 13, 21] ∧ 2 ^ 12 < 2 ^ 13 ∧ 21 ∈ [12, 13, 21] ∧
      2 ^ 20 < 2 ^ 21 := by decide

theorem launchOk_replicate (n : Nat) (h : 1 ≤ n ∧ n ≤ 2 ^ 30 - 1) : launchOk (List.replicate n 0) = true := by
  unfold launchOk maxProgramWords
  rw [List.length_replicate]
  exact decide_eq_true h

/-- The shortest launch and the longest one; the ends of DMEM's window,
and an address that holds no program word. -/
theorem witness_LaunchTakesTheResetValues :
    launchOk [0] = true ∧ launchOk (List.replicate (2 ^ 30 - 1) 0) = true ∧
    (∃ k : Nat, k ≤ 31 ∧ (0x0001007C : Word).toNat = 0x00010000 + 4 * k) ∧
    (¬ ∃ k : Nat, k ≤ 31 ∧ (0x00010080 : Word).toNat = 0x00010000 + 4 * k) ∧
    (∀ i < [(0 : Word)].length, (8 : Word).toNat ≠ 4 * (i + 1)) := by
  refine ⟨rfl, launchOk_replicate _ ⟨by decide, Nat.le_refl _⟩, ⟨31, by decide⟩, ?_, by decide⟩
  rintro ⟨k, hk, h⟩
  rw [show (0x00010080 : Word).toNat = 0x00010080 from rfl] at h
  omega

theorem witness_FetchReadsTheProgram :
    launchOk [0x13] = true ∧ (∃ t, run 2 (State.launch [0x13]) = .next t ∧ t.status = .exhausted) ∧
    fetchWord [0x13] 4 = some 0x13 ∧ fetchWord [0x13] 8 = none := ⟨rfl, ⟨_, rfl, rfl⟩, rfl, rfl⟩

/-- A mapped address, and the first one past the window. -/
theorem witness_UnmappedReadsReturnZero :
    resetDmem.wf = true ∧ ((0x0001007C : Word).toNat, (0 : Word)) ∈ resetDmem.cells ∧
    (∀ u : Word, ((0x00010080 : Word).toNat, u) ∉ resetDmem.cells) := by
  refine ⟨by decide, by decide, fun u h => ?_⟩
  obtain ⟨k, hk, he⟩ := List.mem_map.1 h
  have hk := List.mem_range.1 hk
  have he := (Prod.mk.inj he).1
  rw [show (0x00010080 : Word).toNat = 0x00010080 from rfl] at he
  simp only [dmemBase, dmemStride, dmemWords] at hk he
  omega

theorem witness_MemWriteSetsOneWord : resetDmem.wf = true ∧ (0 : Word) ≠ 0xFFFFFFFF := by decide

/-- A step from a launch, whose memory is the reset one. -/
theorem witness_NoStepWritesMemory :
    (∃ t, step (State.launch [0x00412283]) = .next t) ∧ (State.launch [0x00412283]).dmem = State.reset.dmem :=
  ⟨⟨_, rfl⟩, rfl⟩

theorem witness_EveryFetchReturnsTheLoadedWord : ∃ t, step (State.launch [0x00208063]) = .next t := ⟨_, rfl⟩

theorem witness_OnlyTheListedInstructionsWriteTheirRd :
    ∃ t, execDecoded (.instr (.addi 31 0 1)) State.reset = .next t ∧ (31 : Reg) ≠ 0 ∧
      t.x[(31 : Reg).val] ≠ State.reset.x[(31 : Reg).val] := ⟨_, rfl, by decide, by decide⟩

/-- A step from which the run goes on, over the top of the address space. -/
theorem witness_ThePcMovesByTheRecordedDelta :
    ∃ t, step (State.launch [0xFF9FF06F]) = .next t ∧ t.status = .running ∧ t.pc = 0xFFFFFFFC :=
  ⟨_, rfl, rfl, by decide⟩

theorem witness_OnlyTheLinkShowsThePcToARegister :
    (∃ t u, execDecoded (.instr (.lw 1 2 4)) State.reset = .next t ∧
      execDecoded (.instr (.lw 1 2 4)) { State.reset with pc := 0xFFFFFFFC } = .next u) ∧
    (∀ rd imm, Decoded.instr (.lw 1 2 4) ≠ .instr (.jal rd imm)) ∧
    (∀ rd rs1 imm, Decoded.instr (.lw 1 2 4) ≠ .instr (.jalr rd rs1 imm)) ∧ (31 : Reg) ≠ 0 :=
  ⟨⟨_, _, rfl, rfl⟩, by simp, by simp, by decide⟩

/-- A state whose x1 is less than its x2 as signed, and greater as unsigned. -/
def signedPair : State := at_ 4 [(1, 0x80000000), (2, 0x7FFFFFFF)] 0x13

theorem witness_ControlTransfersReachTheirTargets :
    (-4096 : Int) ≠ 0 ∧ signedPair.x[(1 : Reg).val] = signedPair.x[(1 : Reg).val] ∧
    signedPair.x[(1 : Reg).val] ≠ signedPair.x[(2 : Reg).val] ∧
    signedPair.x[(1 : Reg).val].toInt < signedPair.x[(2 : Reg).val].toInt := by decide

/-- The last clause at equality, its boundary. -/
theorem witness_OtherStepsGoToTheNextWord :
    signedPair.x[(1 : Reg).val] ≠ signedPair.x[(2 : Reg).val] ∧
    signedPair.x[(1 : Reg).val] = signedPair.x[(1 : Reg).val] ∧
    signedPair.x[(1 : Reg).val].toInt ≤ signedPair.x[(1 : Reg).val].toInt := by decide

/-- Not taken, taken with an immediate that is not 0, and with 0; the conditions of `BneBranchesOnNotEqual` are the
same two, the other way round. -/
theorem witness_BeqBranchesOnEqual_and_BneBranchesOnNotEqual :
    signedPair.x[(1 : Reg).val] ≠ signedPair.x[(2 : Reg).val] ∧
    signedPair.x[(1 : Reg).val] = signedPair.x[(1 : Reg).val] ∧ (2 : Int) ≠ 0 ∧ (0 : Int) = 0 := by decide

theorem witness_BltBranchesOnSignedLess :
    ¬ signedPair.x[(1 : Reg).val].toInt < signedPair.x[(1 : Reg).val].toInt ∧
    signedPair.x[(1 : Reg).val].toInt < signedPair.x[(2 : Reg).val].toInt ∧ (2 : Int) ≠ 0 ∧ (0 : Int) = 0 := by
  decide

theorem witness_SrlReadingsAgreeBelow32 : (31 : Word).toNat < 32 ∧ 32 ≤ (32 : Word).toNat := by decide

/-- Both outcomes of the report: an unsupported word and a supported one. -/
theorem witness_TheReportHoldsThePcAndTheWord :
    (∃ t, (State.launch [0]).fetch = some 0 ∧ step (State.launch [0]) = .next t ∧ decode 0 = .unsupported 0) ∧
    (∃ t, (State.launch [0x13]).fetch = some 0x13 ∧ step (State.launch [0x13]) = .next t ∧
      decode 0x13 ≠ .unsupported 0x13) :=
  ⟨⟨_, rfl, rfl, by decide⟩, ⟨_, rfl, rfl, by decide⟩⟩

theorem witness_UnlistedWordsRunAsNoOps :
    Steppable (State.launch [0x80000033]) ∧ (State.launch [0x80000033]).fetch = some 0x80000033 ∧
    (∀ r ∈ maskRows, ¬ r.Selects 0x80000033) :=
  ⟨⟨rfl, rfl⟩, rfl, by simp [maskRows, MaskRow.Selects]⟩

theorem witness_StepRunsTheDecodedWord :
    (Steppable (State.launch [0x13]) ∧ (State.launch [0x13]).fetch = some 0x13 ∧
      decode 0x13 = .instr (.addi 0 0 0)) ∧
    (Steppable (State.launch [0]) ∧ (State.launch [0]).fetch = some 0 ∧ decode 0 = .unsupported 0) :=
  ⟨⟨⟨rfl, rfl⟩, rfl, by decide⟩, ⟨⟨rfl, rfl⟩, rfl, by decide⟩⟩

/-- One word, and the pc just past it. -/
def pastTheEnd : State := { State.launch [0x13] with pc := 8, lastDelta := 4, trace := [⟨4, resetRegs⟩] }

theorem witness_AFetchThatFindsNothingEndsTheRun : Steppable pastTheEnd ∧ pastTheEnd.fetch = none :=
  ⟨⟨rfl, rfl⟩, by decide⟩

/-- `beq x0,x0,0`. -/
def halting : State := State.launch [0x00000063]

theorem witness_TheHaltingStepChangesNothing : ∃ t, step halting = .next t ∧ t.status = .halted := ⟨_, rfl, rfl⟩

/-- Both exits (also the two clauses of `TheStatusChangesOnlyAsTheRunEnds`). -/
theorem witness_TheFinalLineOfBothExits :
    (∃ t, step halting = .next t ∧ t.status = .halted) ∧
    (∃ t, step pastTheEnd = .next t ∧ t.status = .exhausted) := ⟨⟨_, rfl, rfl⟩, ⟨_, rfl, rfl⟩⟩

/-- The invariant of a state in the middle of a run. -/
theorem pastTheEnd_inv : Inv pastTheEnd where
  zero := by decide
  memory := by decide
  pcEven := by decide
  lines := by decide
  dump := rfl
  lastLine := fun _ => .inr (by decide)

theorem witness_ExhaustionRepeatsTheLastLine :
    Inv pastTheEnd ∧ pastTheEnd.trace ≠ [] ∧ ∃ t, step pastTheEnd = .next t ∧ t.status = .exhausted :=
  ⟨pastTheEnd_inv, by decide, _, rfl, rfl⟩

theorem witness_TheDumpListsEveryMappedWordOnce :
    halting.dmem.wf = true ∧ (∃ t, step halting = .next t ∧ Ended t) ∧
    (∃ t, run 1 (State.launch [0x00000063]) = .next t ∧ Ended t) :=
  ⟨by decide, ⟨_, rfl, .inl rfl⟩, ⟨_, rfl, .inl rfl⟩⟩

/-- Also of the second clause of `TheHaltingStepChangesNothing`. -/
theorem witness_TheStatusChangesOnlyAsTheRunEnds :
    Steppable halting ∧ HaltIdiom halting ∧ (∃ t, step halting = .next t) ∧
    (∃ t, step (State.launch [0x13]) = .next t) :=
  ⟨⟨rfl, rfl⟩, ⟨0x00000063, 0, 0, rfl, .inl ⟨by decide, rfl⟩⟩, ⟨_, rfl⟩, ⟨_, rfl⟩⟩

theorem witness_AnEndedRunTakesNoStep :
    Ended { State.reset with status := .halted } ∧ Ended { State.reset with status := .exhausted } :=
  ⟨.inl rfl, .inr rfl⟩

theorem replicate_too_long (n : Nat) (h : 2 ^ 30 ≤ n) :
    ¬ (1 ≤ (List.replicate n (0 : Word)).length ∧ (List.replicate n (0 : Word)).length ≤ 2 ^ 30 - 1) := by
  rw [List.length_replicate]
  omega

theorem witness_EveryAdmittedStepCompletes :
    Steppable pastTheEnd ∧ Steppable { State.reset with imem := List.replicate (2 ^ 30 - 1) 0 } :=
  ⟨⟨rfl, rfl⟩, ⟨rfl, launchOk_replicate _ ⟨by decide, Nat.le_refl _⟩⟩⟩

/-- Too short by one word, and too long by one word. -/
theorem witness_OnlyAdmittedLaunchesRun :
    State.reset.status = .running ∧ ¬ (1 ≤ State.reset.imem.length ∧ State.reset.imem.length ≤ 2 ^ 30 - 1) ∧
    ¬ (1 ≤ (List.replicate (2 ^ 30) (0 : Word)).length ∧
      (List.replicate (2 ^ 30) (0 : Word)).length ≤ 2 ^ 30 - 1) :=
  ⟨rfl, by decide, replicate_too_long _ (Nat.le_refl _)⟩

/-- The last numeral and the last space of a trace line, and the least and the largest address. -/
theorem witness_TraceTextHasFixedWidthNumerals : 32 < 33 ∧ 31 < 32 ∧ 0 < 2 ^ 32 ∧ 0xFFFFFFFF < 2 ^ 32 := by decide

theorem witness_EveryStepKeepsTheInvariant : Inv pastTheEnd ∧ ∃ t, step pastTheEnd = .next t :=
  ⟨pastTheEnd_inv, _, rfl⟩

theorem witness_ARunRecordsOneLineForEachStep :
    ∃ t, run 3 (State.launch [0x000000B3, 0x00508093, 0x00108063]) = .next t := ⟨_, rfl⟩

theorem witness_TheResetLastDeltaIsNeverObserved :
    launchOk [0] = true ∧ launchOk (List.replicate (2 ^ 30 - 1) 0) = true :=
  ⟨rfl, launchOk_replicate _ ⟨by decide, Nat.le_refl _⟩⟩

theorem witness_TheLogsAreAppendOnly : ∃ t, run 2 (State.launch [0xFFFFFFFF, 0x13]) = .next t := ⟨_, rfl⟩

theorem witness_APlacedWordIsFetchedNext : State.reset.pc.toNat % 4 = 0 ∧ State.reset.pc ≠ 0 := by decide

end Sys2Proof.Tests
end

/-! PROOFS. The statements of 10_state.md. First what a decoded word does as one retired effect, and the step with
it; then the registers, the pc, the status, the logs, lastDelta and the run invariant. -/

namespace Sys2Proof.Machine

/-! ## A decoded word as one effect -/

/-- What EXECUTE answers for a decoded word; an unsupported one is a no-op with delta 4 (R301). -/
def effectOfDecoded (d : Decoded) (s : State) : Effect :=
  match d with
  | .instr i => effectOf i s
  | .unsupported _ => ⟨none, 4, false⟩

/-- The state that retires a decoded word's effect: an unsupported word has been reported (R301). -/
def State.reported (s : State) (d : Decoded) : State :=
  match d with
  | .instr _ => s
  | .unsupported w => s.raiseUnsupported w

@[simp] theorem State.reported_x (s : State) (d : Decoded) : (s.reported d).x = s.x := by cases d <;> rfl
@[simp] theorem State.reported_pc (s : State) (d : Decoded) : (s.reported d).pc = s.pc := by cases d <;> rfl
@[simp] theorem State.reported_dmem (s : State) (d : Decoded) : (s.reported d).dmem = s.dmem := by cases d <;> rfl
@[simp] theorem State.reported_imem (s : State) (d : Decoded) : (s.reported d).imem = s.imem := by cases d <;> rfl
@[simp] theorem State.reported_lastDelta (s : State) (d : Decoded) :
    (s.reported d).lastDelta = s.lastDelta := by cases d <;> rfl
@[simp] theorem State.reported_status (s : State) (d : Decoded) :
    (s.reported d).status = s.status := by cases d <;> rfl
@[simp] theorem State.reported_trace (s : State) (d : Decoded) : (s.reported d).trace = s.trace := by cases d <;> rfl
@[simp] theorem State.reported_dump (s : State) (d : Decoded) : (s.reported d).dump = s.dump := by cases d <;> rfl

theorem State.report_prefix_reported (s : State) (d : Decoded) : s.report <+: (s.reported d).report := by
  cases d with
  | instr i => exact List.prefix_rfl
  | unsupported w => exact List.prefix_append _ _

/-- Every decoded word completes, and what it does is to retire its effect. -/
theorem execDecoded_eq_retire (d : Decoded) (s : State) :
    execDecoded d s = .next ((s.reported d).retire (effectOfDecoded d s)) := by
  cases d with
  | instr i => exact exec_eq_retire i s
  | unsupported w => exact execUnsupported_eq_retire w s

/-- The state after a decoded word. -/
theorem eq_retire_of_execDecoded {d : Decoded} {s t : State} (h : execDecoded d s = .next t) :
    t = (s.reported d).retire (effectOfDecoded d s) := by
  rw [execDecoded_eq_retire] at h
  exact (Host.Outcome.next.inj h).symm

/-! ## The step -/

/-- `step_cases`, with both kinds of decoded word in one clause. -/
theorem step_exhausts_or_retires {s t : State} (h : step s = .next t) :
    s.status = .running ∧ launchOk s.imem = true ∧
      ((s.fetch = none ∧ t = s.exhaust) ∨
       ∃ w, s.fetch = some w ∧ t = (s.reported (decode w)).retire (effectOfDecoded (decode w) s)) := by
  obtain ⟨hs, hl, hfetch⟩ := step_cases h
  refine ⟨hs, hl, ?_⟩
  rcases hfetch with hnone | ⟨w, i, hf, hd, ht⟩ | ⟨w, v, hf, hd, ht⟩
  · exact .inl hnone
  · exact .inr ⟨w, hf, by rw [hd]; exact ht⟩
  · exact .inr ⟨w, hf, by rw [hd]; exact ht⟩

theorem step_eq_retire {s : State} {w : Word} (hs : s.status = .running) (hl : launchOk s.imem = true)
    (hf : s.fetch = some w) :
    step s = .next ((s.reported (decode w)).retire (effectOfDecoded (decode w) s)) := by
  rw [step_of_fetch hs hl hf, execDecoded_eq_retire]

theorem step_of_not_running {s : State} (hs : s.status ≠ .running) : step s = .fault .runEnded := by
  cases h : s.status with
  | running => exact absurd h hs
  | halted => simp [step, h]
  | exhausted => simp [step, h]

theorem step_of_not_launchOk {s : State} (hs : s.status = .running) (hl : launchOk s.imem ≠ true) :
    step s = .refused .launchRefused := by
  simp [step, hs, hl]

/-! ## What an effect depends on -/

/-- EXECUTE reads the registers, the pc and DMEM, and nothing else. -/
theorem effectOfDecoded_congr {s u : State} (hx : s.x = u.x) (hpc : s.pc = u.pc) (hm : s.dmem = u.dmem)
    (d : Decoded) : effectOfDecoded d s = effectOfDecoded d u := by
  cases d with
  | unsupported w => rfl
  | instr i =>
    cases i <;> simp [effectOfDecoded, effectOf, State.readReg, State.basePlusOffset, State.jalrTarget,
      State.deltaTo, State.linkValue, hx, hpc, hm]

/-- The pc reaches the written value in `jal` and `jalr` only (R37). -/
theorem effectOfDecoded_write_of_not_link {d : Decoded} (hjal : ∀ rd imm, d ≠ .instr (.jal rd imm))
    (hjalr : ∀ rd rs1 imm, d ≠ .instr (.jalr rd rs1 imm)) (s : State) (p : Word) :
    (effectOfDecoded d { s with pc := p }).write = (effectOfDecoded d s).write := by
  cases d with
  | unsupported w => rfl
  | instr i =>
    cases i with
    | jal rd imm => exact absurd rfl (hjal rd imm)
    | jalr rd rs1 imm => exact absurd rfl (hjalr rd rs1 imm)
    | _ => rfl

/-- R18, R243: EXECUTE answers halt exactly for a taken branch with immediate 0. -/
theorem effectOfDecoded_halt_iff (d : Decoded) (s : State) :
    (effectOfDecoded d s).halt = true ↔ ∃ rs1 rs2,
      (d = .instr (.beq rs1 rs2 0) ∧ s.x[rs1.val] = s.x[rs2.val]) ∨
      (d = .instr (.bne rs1 rs2 0) ∧ s.x[rs1.val] ≠ s.x[rs2.val]) ∨
      (d = .instr (.blt rs1 rs2 0) ∧ s.x[rs1.val].toInt < s.x[rs2.val].toInt) := by
  cases d with
  | unsupported w => simp [effectOfDecoded]
  | instr i =>
    cases i with
    | beq rs1 rs2 imm =>
      simp only [effectOfDecoded, effectOf, resolve_halts_iff, condEq, State.readReg]
      grind
    | bne rs1 rs2 imm =>
      simp only [effectOfDecoded, effectOf, resolve_halts_iff, condNe, State.readReg]
      grind
    | blt rs1 rs2 imm =>
      simp only [effectOfDecoded, effectOf, resolve_halts_iff, condLt_eq, State.readReg]
      grind
    | _ => simp [effectOfDecoded, effectOf, Effect.result]

/-! ## Registers -/

/-- A register other than x0 changes in WRITEBACK only if it is the one written (R34). -/
theorem State.writeback_changes {s : State} {write : Option (Reg × Word)} {r : Reg} (hr : r ≠ 0)
    (h : (s.writeback write).x[r.val] ≠ s.x[r.val]) : ∃ v, write = some (r, v) := by
  cases write with
  | none => simp [State.writeback_none_reg, hr] at h
  | some p =>
    obtain ⟨rd, v⟩ := p
    by_cases hrd : r = rd
    · exact ⟨v, by rw [hrd]⟩
    · simp [State.writeback_some_reg, hr, hrd] at h

/-- x0 is 0 after every decoded word (R33). -/
theorem execDecoded_zero {d : Decoded} {s t : State} (h : execDecoded d s = .next t) : t.x[0] = 0 := by
  simp [eq_retire_of_execDecoded h]

theorem linkValue_eq (s : State) : s.linkValue = s.pc + 4 := Word.wrap_uval_add s.pc 4

/-! ## The pc -/

theorem exec_pc_next {i : Instr} {s : State} (hh : (effectOf i s).halt = false) (hd : (effectOf i s).delta = 4) :
    ∃ t, exec i s = .next t ∧ t.pc = s.pc + 4 :=
  ⟨_, exec_eq_retire i s, by rw [State.retire_pc, hh, hd]; exact Word.wrap_uval_add s.pc 4⟩

/-- A branch whose condition is false goes to the next word, whatever its immediate (R243). -/
theorem exec_pc_next_of_not_taken {i : Instr} {s : State} {cond : Bool} {imm : Int}
    (hi : effectOf i s = resolve cond imm) (hc : cond = false) : ∃ t, exec i s = .next t ∧ t.pc = s.pc + 4 := by
  subst hc
  exact exec_pc_next (by rw [hi, resolve_false]) (by rw [hi, resolve_false])

/-! ## IMEM -/

/-- R61: IMEM holds the word i at `4*(i+1)`, and nothing at any other address. -/
theorem fetchWord_some_iff (imem : List Word) (a w : Word) :
    fetchWord imem a = some w ↔ ∃ i : Nat, a.toNat = 4 * (i + 1) ∧ imem[i]? = some w := by
  simp only [← slotIndex_some_iff]
  unfold fetchWord
  cases slotIndex a <;> simp

/-- An admitted launch has a word at the reset entry (R61, R172). -/
theorem fetch_some_at_entry {s : State} (hl : launchOk s.imem = true) (hpc : s.pc = 4) :
    ∃ w, s.fetch = some w := by
  have hpos : 0 < s.imem.length := ((launchOk_iff _).1 hl).1
  exact ⟨s.imem[0], (fetchWord_some_iff _ _ _).2 ⟨0, by rw [hpc]; rfl, List.getElem?_eq_getElem hpos⟩⟩

end Sys2Proof.Machine

namespace Sys2Proof

/-! ## Evenness of the control-transfer immediates (R109, R110) -/

theorem signExtend_even {v n : Nat} (hn : 0 < n) (hv : v % 2 = 0) : signExtend v n % 2 = 0 := by
  obtain ⟨k, rfl⟩ : ∃ k, n = k + 1 := ⟨n - 1, by omega⟩
  have hpow : (2 : Int) ^ (k + 1) = 2 ^ k * 2 := pow_succ 2 k
  unfold signExtend
  split <;> omega

theorem immB_even (w : Word) : immB w % 2 = 0 := signExtend_even (by decide) (by omega)

theorem immJ_even (w : Word) : immJ w % 2 = 0 := signExtend_even (by decide) (by omega)

/-- The offset by which a decoded word moves the pc: a branch's and `jal`'s immediate, nothing for the others. -/
def Decoded.pcOffset (d : Decoded) : Int :=
  match d with
  | .instr (.beq _ _ imm) => imm
  | .instr (.bne _ _ imm) => imm
  | .instr (.blt _ _ imm) => imm
  | .instr (.jal _ imm) => imm
  | _ => 0

theorem pcOffset_decodeRegReg (w : Word) : (decodeRegReg w).pcOffset = 0 := by
  unfold decodeRegReg
  split_ifs <;> rfl

theorem pcOffset_decodeRegImm (w : Word) : (decodeRegImm w).pcOffset = 0 := by
  unfold decodeRegImm
  split_ifs <;> rfl

theorem pcOffset_decodeLoad (w : Word) : (decodeLoad w).pcOffset = 0 := by
  unfold decodeLoad
  split_ifs <;> rfl

theorem pcOffset_decodeJalr (w : Word) : (decodeJalr w).pcOffset = 0 := by
  unfold decodeJalr
  split_ifs <;> rfl

theorem pcOffset_decodeBranch_even (w : Word) : (decodeBranch w).pcOffset % 2 = 0 := by
  unfold decodeBranch
  split_ifs <;> simp only [Decoded.pcOffset, immB_even, Int.zero_emod]

theorem pcOffset_decodeJal_even (w : Word) : (decodeJal w).pcOffset % 2 = 0 := by
  rw [decodeJal, Decoded.pcOffset, immJ_even]

/-- Only the branch class and the jump class build an offset, from the even B and J immediates (R113). -/
theorem pcOffset_decode_even (w : Word) : (decode w).pcOffset % 2 = 0 := by
  unfold decode
  split_ifs
  · rw [pcOffset_decodeRegReg, Int.zero_emod]
  · rw [pcOffset_decodeRegImm, Int.zero_emod]
  · rw [pcOffset_decodeLoad, Int.zero_emod]
  · rw [pcOffset_decodeJalr, Int.zero_emod]
  · exact pcOffset_decodeBranch_even w
  · exact pcOffset_decodeJal_even w
  · rfl

theorem Word.wrap_even {e : Int} (h : e % 2 = 0) : (Word.wrap e).toNat % 2 = 0 := by
  simp only [Word.wrap, BitVec.toNat_ofInt]
  omega

namespace Machine

/-! ## Every delta is even while the pc is (R68) -/

theorem resolve_delta_even {cond : Bool} {imm : Int} (h : imm % 2 = 0) : (resolve cond imm).delta % 2 = 0 := by
  unfold resolve
  split
  · split
    · rfl
    · exact h
  · rfl

/-- The target of `jalr` has bit 0 cleared (R222). -/
theorem jalrTarget_even (s : State) (rs1 : Reg) (imm : Int) : (s.jalrTarget rs1 imm).toNat % 2 = 0 := by
  have hbit : (s.jalrTarget rs1 imm).getLsbD 0 = false := by simp [State.jalrTarget]
  rw [BitVec.getLsbD, Nat.testBit_zero] at hbit
  simpa using hbit

theorem effectOfDecoded_delta_even {s : State} (hpc : s.pc.toNat % 2 = 0) (w : Word) :
    (effectOfDecoded (decode w) s).delta % 2 = 0 := by
  have hoff := pcOffset_decode_even w
  cases hd : decode w with
  | unsupported v => rfl
  | instr i =>
    rw [hd] at hoff
    cases i with
    | jalr rd rs1 imm =>
      have ht := jalrTarget_even s rs1 imm
      simp only [effectOfDecoded, effectOf, State.deltaTo, Word.uval]
      omega
    | beq rs1 rs2 imm => exact resolve_delta_even hoff
    | bne rs1 rs2 imm => exact resolve_delta_even hoff
    | blt rs1 rs2 imm => exact resolve_delta_even hoff
    | jal rd imm => exact hoff
    | _ => rfl

end Machine

end Sys2Proof

namespace Sys2Proof.Safety

open Sys2Proof Sys2Proof.Machine

/-! ## Registers and the pc -/

/-- Settles O17: x0 is forced last in every writeback, and reset has it at 0. -/
theorem registerZeroIsZeroAfterEveryInstruction : Obligations.RegisterZeroIsZeroAfterEveryInstruction := by
  refine ⟨fun prog => by rw [State.readReg, State.launch_x]; decide, fun d s => ?_⟩
  have hzero := execDecoded_zero (execDecoded_eq_retire d s)
  exact ⟨_, execDecoded_eq_retire d s, hzero, hzero⟩

/-- Settles O18: a changed register is the one its effect writes, and only the listed instructions' effects write. -/
theorem onlyTheListedInstructionsWriteTheirRd : Obligations.OnlyTheListedInstructionsWriteTheirRd := by
  intro d s t h r hr hchange
  obtain ⟨v, hwrite⟩ : ∃ v, (effectOfDecoded d s).write = some (r, v) := by
    rw [eq_retire_of_execDecoded h, State.retire_x] at hchange
    exact State.writeback_changes (s := s.reported d) hr (by simpa using hchange)
  cases d with
  | unsupported w => simp [effectOfDecoded] at hwrite
  | instr i =>
    cases i with
    | beq rs1 rs2 imm => simp [effectOfDecoded, effectOf, resolve_write] at hwrite
    | bne rs1 rs2 imm => simp [effectOfDecoded, effectOf, resolve_write] at hwrite
    | blt rs1 rs2 imm => simp [effectOfDecoded, effectOf, resolve_write] at hwrite
    | jal rd imm =>
      obtain ⟨-, rfl, -⟩ : rd ≠ 0 ∧ rd = r ∧ s.linkValue = v := by
        simpa [effectOfDecoded, effectOf] using hwrite
      simp
    | _ =>
      obtain rfl : _ = r := congrArg Prod.fst (Option.some.inj hwrite)
      simp

/-- Settles O19: only a step that advances leaves the run on, and it records the delta it moves the pc by. -/
theorem thePcMovesByTheRecordedDelta : Obligations.ThePcMovesByTheRecordedDelta := by
  intro s t h hrun
  obtain ⟨-, -, ⟨-, rfl⟩ | ⟨w, -, rfl⟩⟩ := step_exhausts_or_retires h
  · cases hrun
  · cases hh : (effectOfDecoded (decode w) s).halt with
    | true => simp [State.retire_status, hh] at hrun
    | false => simp [State.retire_pc, State.retire_lastDelta, hh, Word.wrap_uval_add]

/-- Settles O20: the pc is read for no written value but the link. -/
theorem onlyTheLinkShowsThePcToARegister : Obligations.OnlyTheLinkShowsThePcToARegister := by
  refine ⟨fun d s t u p ht hu hjal hjalr => ?_, fun s rd rs1 imm hrd => ⟨?_, ?_⟩⟩
  · rw [eq_retire_of_execDecoded ht, eq_retire_of_execDecoded hu, State.retire_x, State.retire_x,
      effectOfDecoded_write_of_not_link hjal hjalr s p]
    exact State.writeback_x_congr (by simp) _
  · refine ⟨_, exec_eq_retire _ s, ?_⟩
    simp [effectOf, hrd, State.writeback_some_reg, linkValue_eq]
  · refine ⟨_, exec_eq_retire _ s, ?_⟩
    simp [effectOf, hrd, State.writeback_some_reg, linkValue_eq]

/-- Settles O22: every one of these effects goes on with delta 4. -/
theorem otherStepsGoToTheNextWord : Obligations.OtherStepsGoToTheNextWord := by
  intro s rd rs1 rs2 imm w
  refine ⟨fun i hi => ?_, ⟨_, rfl, Word.wrap_uval_add s.pc 4⟩, fun hne => ?_, fun heq => ?_, fun hle => ?_⟩
  · simp only [List.mem_cons, List.not_mem_nil, or_false] at hi
    rcases hi with rfl | rfl | rfl | rfl | rfl | rfl | rfl | rfl <;> exact exec_pc_next rfl rfl
  · exact exec_pc_next_of_not_taken rfl (decide_eq_false hne)
  · exact exec_pc_next_of_not_taken rfl (decide_eq_false (not_not.2 heq))
  · exact exec_pc_next_of_not_taken rfl (by simpa [condLt_eq, State.readReg] using hle)

/-! ## The status -/

/-- The fetched word is the halt idiom exactly if its effect halts. -/
theorem haltIdiom_iff {s : State} {w : Word} (hf : s.fetch = some w) :
    HaltIdiom s ↔ (effectOfDecoded (decode w) s).halt = true := by
  simp only [HaltIdiom, hf, effectOfDecoded_halt_iff, Option.some.injEq, exists_and_left, exists_eq_left']

theorem not_haltIdiom_of_fetch_none {s : State} (hf : s.fetch = none) : ¬ HaltIdiom s := by
  rintro ⟨w, rs1, rs2, hw, -⟩
  simp [hf] at hw

/-- Settles O47: a step asked of any status but Running is that stop. -/
theorem anEndedRunTakesNoStep : Obligations.AnEndedRunTakesNoStep := by
  rintro s (h | h) <;> exact step_of_not_running (by simp [h])

/-- Settles O46: a retired effect sets Halted if it halts and keeps the status if not; exhaustion sets Exhausted. -/
theorem theStatusChangesOnlyAsTheRunEnds : Obligations.TheStatusChangesOnlyAsTheRunEnds := by
  refine ⟨fun prog => rfl, fun s t h => ?_⟩
  obtain ⟨hs, -, ⟨hf, rfl⟩ | ⟨w, hf, rfl⟩⟩ := step_exhausts_or_retires h
  · simp [State.exhaust, hs, hf, not_haltIdiom_of_fetch_none hf]
  · cases hh : (effectOfDecoded (decode w) s).halt <;>
      simp [State.retire_status, haltIdiom_iff hf, hf, hs, hh]

/-! ## The logs -/

theorem equalButLogs_iff (t u : State) : EqualButLogs t u ↔
    t.x = u.x ∧ t.pc = u.pc ∧ t.dmem = u.dmem ∧ t.imem = u.imem ∧ t.lastDelta = u.lastDelta ∧
      t.status = u.status ∧ t.dump = u.dump := by
  simp [EqualButLogs]

theorem EqualButLogs.exhaust {s u : State} (h : EqualButLogs s u) : EqualButLogs s.exhaust u.exhaust := by
  obtain ⟨hx, hpc, hm, hi, hl, -, -⟩ := (equalButLogs_iff s u).1 h
  simp [equalButLogs_iff, State.exhaust, hx, hpc, hm, hi, hl]

theorem EqualButLogs.retire {s u : State} (h : EqualButLogs s u) (e : Effect) :
    EqualButLogs (s.retire e) (u.retire e) := by
  obtain ⟨hx, hpc, hm, hi, hl, hs, hd⟩ := (equalButLogs_iff s u).1 h
  simp [equalButLogs_iff, State.retire_pc, State.retire_lastDelta, State.retire_status, State.retire_dump,
    State.writeback_x_congr hx, hpc, hm, hi, hl, hs, hd]

theorem EqualButLogs.reported {s u : State} (h : EqualButLogs s u) (d : Decoded) :
    EqualButLogs (s.reported d) (u.reported d) := by
  rw [equalButLogs_iff] at h ⊢
  simpa using h

/-- R46: states that differ only in their logs step alike. -/
theorem EqualButLogs.step_agree {s u : State} (h : EqualButLogs s u) :
    AgreeUpTo EqualButLogs (step s) (step u) := by
  obtain ⟨hx, hpc, hm, hi, -, hs, -⟩ := (equalButLogs_iff s u).1 h
  by_cases hrun : s.status = .running
  case neg =>
    rw [step_of_not_running hrun, step_of_not_running (hs ▸ hrun)]
    exact rfl
  by_cases hok : launchOk s.imem = true
  case neg =>
    rw [step_of_not_launchOk hrun hok, step_of_not_launchOk (hs ▸ hrun) (hi ▸ hok)]
    exact rfl
  have hfetch : s.fetch = u.fetch := by simp [State.fetch, hi, hpc]
  cases hf : s.fetch with
  | none =>
    rw [step_of_fetch_none hrun hok hf, step_of_fetch_none (hs ▸ hrun) (hi ▸ hok) (hfetch ▸ hf)]
    exact h.exhaust
  | some w =>
    rw [step_eq_retire hrun hok hf, step_eq_retire (hs ▸ hrun) (hi ▸ hok) (hfetch ▸ hf),
      effectOfDecoded_congr hx hpc hm]
    exact (h.reported _).retire _

/-- Settles O53: replacing the logs gives a state that is equal but for them. -/
theorem theLogsNeverInfluenceAStep : Obligations.TheLogsNeverInfluenceAStep :=
  fun _ _ _ => EqualButLogs.step_agree rfl

/-- A step only appends to the logs (R46). -/
theorem step_appends {s t : State} (h : step s = .next t) : s.trace <+: t.trace ∧ s.report <+: t.report := by
  obtain ⟨-, -, ⟨-, rfl⟩ | ⟨w, -, rfl⟩⟩ := step_exhausts_or_retires h
  · exact ⟨by simp [State.exhaust], by simp [State.exhaust]⟩
  · exact ⟨by simp, by simpa using s.report_prefix_reported (decode w)⟩

/-- A run of k + 1 steps is a step and a run of k. -/
theorem run_succ_next {k : Nat} {s t : State} (h : run (k + 1) s = .next t) :
    ∃ u, step s = .next u ∧ run k u = .next t := by
  rw [run] at h
  split at h
  · exact ⟨_, ‹_›, h⟩
  · cases h
  · cases h

/-- Settles O58, by induction on the number of steps. -/
theorem theLogsAreAppendOnly : Obligations.TheLogsAreAppendOnly := by
  intro s t k h
  induction k generalizing s with
  | zero =>
    cases h
    exact ⟨List.prefix_rfl, List.prefix_rfl⟩
  | succ k ih =>
    obtain ⟨u, hstep, hrun⟩ := run_succ_next h
    obtain ⟨htrace, hreport⟩ := step_appends hstep
    obtain ⟨htrace', hreport'⟩ := ih u hrun
    exact ⟨htrace.trans htrace', hreport.trans hreport'⟩

/-! ## The run invariant -/

/-- What the invariant says of one trace line. -/
def LineOk (l : TraceLine) : Prop := l.pc.toNat % 2 = 0 ∧ l.x[0] = 0

theorem lineOk_append {trace : List TraceLine} {l : TraceLine} (h : ∀ m ∈ trace, LineOk m) (hl : LineOk l) :
    ∀ m ∈ trace ++ [l], LineOk m := by
  intro m hm
  rcases List.mem_append.1 hm with hm | hm
  · exact h m hm
  · exact List.mem_singleton.1 hm ▸ hl

/-- When a fetch finds nothing, the entry was left, so a line is recorded and the final one repeats it (R157). -/
theorem Inv.final_line_ok {s : State} (hinv : Inv s) (hs : s.status = .running) (hl : launchOk s.imem = true)
    (hf : s.fetch = none) : LineOk ⟨Word.wrap (s.pc.uval - s.lastDelta), s.x⟩ := by
  rcases hinv.lastLine hs with ⟨-, hpc⟩ | hlast
  · obtain ⟨w, hw⟩ := fetch_some_at_entry hl hpc
    simp [hf] at hw
  · exact hinv.lines _ (List.mem_of_getLast? hlast)

theorem Inv.exhaust {s : State} (hinv : Inv s) (hs : s.status = .running) (hl : launchOk s.imem = true)
    (hf : s.fetch = none) : Inv s.exhaust where
  zero := hinv.zero
  memory := hinv.memory
  pcEven := hinv.pcEven
  lines := lineOk_append hinv.lines (hinv.final_line_ok hs hl hf)
  dump := rfl
  lastLine := nofun

/-- Retiring any effect of even delta keeps the invariant: the line just recorded is the pc moved back. -/
theorem Inv.retire {s : State} (hinv : Inv s) {e : Effect} (he : e.delta % 2 = 0) :
    Inv (s.retire e) where
  zero := by simp
  memory := by simpa using hinv.memory
  pcEven := by
    rw [State.retire_pc]
    split
    · exact hinv.pcEven
    · have hpc := hinv.pcEven
      exact Word.wrap_even (by rw [Word.uval]; omega)
  lines := by
    rw [State.retire_trace]
    exact lineOk_append hinv.lines ⟨hinv.pcEven, State.writeback_zero _ _⟩
  dump := by
    rw [State.retire_dump, State.retire_status, State.retire_dmem]
    cases e.halt
    · exact hinv.dump
    · rfl
  lastLine := by
    intro hrun
    cases hh : e.halt with
    | true => simp [State.retire_status, hh] at hrun
    | false =>
      right
      simp [State.retire_pc, State.retire_lastDelta, hh, Word.wrap_back]

theorem Inv.reported {s : State} (hinv : Inv s) (d : Decoded) : Inv (s.reported d) := by
  cases d with
  | instr i => exact hinv
  | unsupported w => exact ⟨hinv.zero, hinv.memory, hinv.pcEven, hinv.lines, hinv.dump, hinv.lastLine⟩

/-- Settles O55: exhaustion repeats a recorded line, and a decoded word retires an effect of even delta. -/
theorem everyStepKeepsTheInvariant : Obligations.EveryStepKeepsTheInvariant := by
  intro s t hinv h
  obtain ⟨hs, hl, ⟨hf, rfl⟩ | ⟨w, -, rfl⟩⟩ := step_exhausts_or_retires h
  · exact hinv.exhaust hs hl hf
  · exact (hinv.reported _).retire (effectOfDecoded_delta_even hinv.pcEven w)

/-- Settles O54: field by field, from the reset values. -/
theorem aLaunchStartsInTheInvariant : Obligations.ALaunchStartsInTheInvariant := fun prog =>
  { zero := by rw [State.launch_x]; decide
    memory := resetDmem_wf
    pcEven := by rw [State.launch_pc]; decide
    lines := nofun
    dump := rfl
    lastLine := fun _ => .inl ⟨rfl, rfl⟩ }

/-! ## Reset -/

theorem resetRegs_of_ne_two {r : Reg} (h : r ≠ 2) : resetRegs[r.val] = 0 := by
  have hval : 2 ≠ r.val := fun e => h (Fin.ext e.symm)
  simp [resetRegs, hval]

theorem mem_resetDmem_iff (a : Nat) (v : Word) :
    (a, v) ∈ resetDmem.cells ↔ (∃ k : Nat, k ≤ 31 ∧ a = 0x00010000 + 4 * k) ∧ v = 0 := by
  simp only [resetDmem, List.mem_map, List.mem_range, dmemWords, dmemBase, dmemStride, dmemResetWord, Prod.mk.injEq]
  constructor
  · rintro ⟨k, hk, ha, hv⟩
    exact ⟨⟨k, by omega, ha.symm⟩, hv.symm⟩
  · rintro ⟨⟨k, hk, ha⟩, hv⟩
    exact ⟨k, by omega, ha.symm, hv.symm⟩

/-- DMEM at reset maps its window, each word to 0 (R48, R63). -/
theorem lookup_resetDmem (a : Word) : resetDmem.lookup a =
    if ∃ k : Nat, k ≤ 31 ∧ a.toNat = 0x00010000 + 4 * k then some 0 else none := by
  split
  · next hk =>
    exact (lookupCell_some_iff (resetDmem.wf_iff.1 resetDmem_wf).1 _ _).2 ((mem_resetDmem_iff _ _).2 ⟨hk, rfl⟩)
  · next hk =>
    exact (lookupCell_none_iff _ _).2 fun v hv => hk ((mem_resetDmem_iff _ _).1 hv).1

/-- A word of an admitted launch is fetched at its address, which is a 32-bit one (R61, R172). -/
theorem fetchWord_of_index {prog : List Word} (hok : launchOk prog = true) (i : Nat) (h : i < prog.length) :
    fetchWord prog (BitVec.ofNat 32 (4 * (i + 1))) = some prog[i] := by
  obtain ⟨-, hmax⟩ := (launchOk_iff prog).1 hok
  refine (fetchWord_some_iff _ _ _).2 ⟨i, ?_, List.getElem?_eq_getElem h⟩
  rw [BitVec.toNat_ofNat, Nat.mod_eq_of_lt (by omega)]

theorem fetchWord_of_no_index {prog : List Word} {a : Word} (h : ∀ i < prog.length, a.toNat ≠ 4 * (i + 1)) :
    fetchWord prog a = none := by
  refine Option.eq_none_iff_forall_ne_some.2 fun w hw => ?_
  obtain ⟨i, ha, hi⟩ := (fetchWord_some_iff _ _ _).1 hw
  exact h i (List.getElem?_eq_some_iff.1 hi).1 ha

/-- Settles O11: the registers, DMEM and IMEM by their own lemmas, the rest by definition. -/
theorem launchTakesTheResetValues : Obligations.LaunchTakesTheResetValues := by
  intro prog hok
  refine ⟨rfl, rfl, fun r hr => resetRegs_of_ne_two hr, lookup_resetDmem, ?_, ?_, rfl, rfl, rfl⟩
  · exact fetchWord_of_index hok
  · exact fun a ha => fetchWord_of_no_index ha

/-! ## lastDelta -/

theorem agreeUpTo_refl {R : State → State → Prop} (hR : ∀ s, R s s) (o : Host.Outcome State Fault Refusal) :
    AgreeUpTo R o o := by
  cases o with
  | next s => exact hR s
  | fault r => exact rfl
  | refused r => exact rfl

theorem equalButLastDelta_refl (s : State) : EqualButLastDelta s s := rfl

theorem run_of_step {k : Nat} {s t : State} (h : step s = .next t) : run (k + 1) s = run k t := by
  rw [run, h]

theorem run_succ_of_not_running {k : Nat} {s : State} (h : s.status ≠ .running) :
    run (k + 1) s = .fault .runEnded := by
  rw [run, step_of_not_running h]

/-- ADVANCE overwrites lastDelta, so after it the old value is gone (R156). -/
theorem retire_withLastDelta_of_not_halt {e : Effect} (h : e.halt = false) (s : State) (d : Int) :
    { s with lastDelta := d }.retire e = s.retire e := by
  obtain ⟨write, delta, halt⟩ := e
  subst h
  cases write <;> rfl

/-- HALT leaves lastDelta alone, and shows it in nothing it records (R155, R157). -/
theorem retire_withLastDelta_of_halt {e : Effect} (h : e.halt = true) (s : State) (d : Int) :
    { s with lastDelta := d }.retire e = { s.retire e with lastDelta := d } := by
  obtain ⟨write, delta, halt⟩ := e
  subst h
  cases write <;> rfl

theorem reported_withLastDelta (s : State) (d : Int) (dec : Decoded) :
    { s with lastDelta := d }.reported dec = { s.reported dec with lastDelta := d } := by
  cases dec <;> rfl

/-- The first step from the entry either forgets lastDelta or ends the run. -/
theorem first_step_withLastDelta (s : State) (d : Int) (hs : s.status = .running) (hl : launchOk s.imem = true)
    (hpc : s.pc = 4) : ∃ t, step s = .next t ∧
      (step { s with lastDelta := d } = .next t ∨
        t.status ≠ .running ∧ step { s with lastDelta := d } = .next { t with lastDelta := d }) := by
  obtain ⟨w, hf⟩ := fetch_some_at_entry hl hpc
  refine ⟨_, step_eq_retire hs hl hf, ?_⟩
  rw [step_eq_retire (s := { s with lastDelta := d }) hs hl hf, reported_withLastDelta,
    effectOfDecoded_congr (s := { s with lastDelta := d }) (u := s) rfl rfl rfl]
  cases hh : (effectOfDecoded (decode w) s).halt with
  | false => exact .inl (by rw [retire_withLastDelta_of_not_halt hh])
  | true => exact .inr ⟨by simp [State.retire_status, hh], by rw [retire_withLastDelta_of_halt hh]⟩

/-- Settles O57: after the first step the two runs are in one state, or both have ended and only show lastDelta. -/
theorem theResetLastDeltaIsNeverObserved : Obligations.TheResetLastDeltaIsNeverObserved := by
  intro prog d k hok
  cases k with
  | zero => exact rfl
  | succ k =>
    obtain ⟨t, hstep, hsame | ⟨hended, hother⟩⟩ := first_step_withLastDelta (State.launch prog) d rfl hok rfl
    · rw [run_of_step hstep, run_of_step hsame]
      exact agreeUpTo_refl equalButLastDelta_refl _
    · rw [run_of_step hstep, run_of_step hother]
      cases k with
      | zero => exact rfl
      | succ k =>
        rw [run_succ_of_not_running hended, run_succ_of_not_running (s := { t with lastDelta := d }) hended]
        exact rfl

end Sys2Proof.Safety

/-! PROOFS. The statements of 20_memory.md. First the data memory's write, what a step leaves of the memories, and
where the host's word is placed; then each statement from them. -/

namespace Sys2Proof.Machine

/-! ## MemWrite -/

theorem lookupCell_insertCell_same (cells : List (Nat × Word)) (a : Nat) (v : Word) :
    lookupCell (insertCell cells a v) a = some v := by
  induction cells with
  | nil => simp [insertCell, lookupCell]
  | cons c rest ih =>
    rw [insertCell]
    split
    · simp [lookupCell]
    · split
      · simp [lookupCell]
      · next hne => rwa [lookupCell, if_neg (Ne.symm hne)]

theorem lookupCell_insertCell_of_ne (cells : List (Nat × Word)) {a b : Nat} (h : b ≠ a) (v : Word) :
    lookupCell (insertCell cells a v) b = lookupCell cells b := by
  have hskip (rest : List (Nat × Word)) : lookupCell ((a, v) :: rest) b = lookupCell rest b := if_neg h.symm
  induction cells with
  | nil => exact hskip []
  | cons c rest ih =>
    rw [insertCell]
    split
    · exact hskip _
    · split
      · next heq => rw [hskip, lookupCell, if_neg (heq ▸ h.symm)]
      · rw [lookupCell, lookupCell, ih]

/-! ## What a step leaves of the memories -/

/-- No step writes a memory (R65, R75), and each records one line: an instruction's, or the final one (R156, R157). -/
theorem step_keeps_memories {s t : State} (h : step s = .next t) :
    t.dmem = s.dmem ∧ t.imem = s.imem ∧ t.trace.length = s.trace.length + 1 := by
  obtain ⟨-, -, ⟨-, rfl⟩ | ⟨w, -, rfl⟩⟩ := step_exhausts_or_retires h
  · simp [State.exhaust]
  · simp

/-! ## Placing a word (log 20) -/

/-- Every index that an address names is one a launch may hold (R61, R172). -/
theorem slotIndex_lt_max {a : Word} {k : Nat} (h : slotIndex a = some k) : k < maxProgramWords := by
  have ha := (slotIndex_some_iff a k).1 h
  have hlt := a.isLt
  rw [maxProgramWords]
  omega

theorem placeAt_get {k : Nat} (hk : k < maxProgramWords) (imem : List Word) (w : Word) :
    (placeAt imem k w)[k]? = some w := by
  rw [placeAt, List.getElem?_take_of_lt hk, List.getElem?_set_self]
  rw [List.length_append, List.length_replicate]
  omega

theorem placeAt_launchOk {k : Nat} (hk : k < maxProgramWords) (imem : List Word) (w : Word) :
    launchOk (placeAt imem k w) = true := by
  have hget := placeAt_get hk imem w
  have hpos : k < (placeAt imem k w).length := (List.getElem?_eq_some_iff.1 hget).1
  have hmax : (placeAt imem k w).length ≤ maxProgramWords := List.length_take_le _ _
  exact (launchOk_iff _).2 ⟨by omega, hmax⟩

/-- Both cases of `placeWord` at once: the word is at the index of the new pc, which is the old one where that has
an index. -/
theorem State.placeWord_eq (s : State) (w : Word) :
    ∃ pc k, slotIndex pc = some k ∧ (∀ i, slotIndex s.pc = some i → pc = s.pc) ∧
      s.placeWord w = { s with status := .running, pc := pc, imem := placeAt s.imem k w } := by
  cases h : slotIndex s.pc with
  | some k => exact ⟨s.pc, k, h, fun _ _ => rfl, by simp [State.placeWord, h]⟩
  | none => exact ⟨BitVec.ofNat 32 imemBase, 0, rfl, nofun, by simp [State.placeWord, h]⟩

/-- A nonzero multiple of 4 names an index of IMEM (R61). -/
theorem slotIndex_of_multiple {a : Word} (h4 : a.toNat % 4 = 0) (h0 : a ≠ 0) :
    ∃ i, slotIndex a = some i := by
  have hpos : a.toNat ≠ 0 := fun h => h0 (BitVec.eq_of_toNat_eq h)
  exact ⟨a.toNat / 4 - 1, (slotIndex_some_iff _ _).2 (by omega)⟩

end Sys2Proof.Machine

namespace Sys2Proof.Safety

open Sys2Proof Sys2Proof.Machine

/-! ## The data memory -/

/-- Settles O13: a listed word is what the lookup finds, and an address that is not listed has no lookup. -/
theorem unmappedReadsReturnZero : Obligations.UnmappedReadsReturnZero := by
  intro m a v hwf
  obtain ⟨hasc, -⟩ := m.wf_iff.1 hwf
  exact ⟨fun hmem => Memory.read_of_lookup_some ((lookupCell_some_iff hasc _ _).2 hmem),
    fun hnot => Memory.read_of_lookup_none ((lookupCell_none_iff _ _).2 hnot)⟩

/-- Settles O14: a cell inserted at an address is found there, and changes no other address's lookup. -/
theorem memWriteSetsOneWord : Obligations.MemWriteSetsOneWord := fun m _ v _ _ =>
  ⟨lookupCell_insertCell_same m.cells _ v,
    fun hne => lookupCell_insertCell_of_ne m.cells (fun h => hne (BitVec.eq_of_toNat_eq h)) v⟩

/-- Every address of the reset memory reads as 0: mapped words are 0, and unmapped addresses read as 0 (R48, R64). -/
theorem read_resetDmem (a : Word) : resetDmem.read a = 0 := by
  have h := lookup_resetDmem a
  split at h
  · exact Memory.read_of_lookup_some h
  · exact Memory.read_of_lookup_none h

/-- Settles O15: no step writes a memory, and `lw` writes rd with a word read from the reset memory. -/
theorem noStepWritesMemory : Obligations.NoStepWritesMemory := by
  refine ⟨fun s t h => (step_keeps_memories h).1, fun s rd rs1 imm hm => ⟨_, exec_eq_retire _ s, ?_⟩⟩
  have hread : s.dmem.read (s.basePlusOffset rs1 imm) = 0 := hm ▸ read_resetDmem _
  simp [effectOf, Effect.result, State.writeback_some_reg, hread]

/-! ## IMEM -/

/-- Settles O16: a fetch reads IMEM only, which no step writes. -/
theorem everyFetchReturnsTheLoadedWord : Obligations.EveryFetchReturnsTheLoadedWord := by
  intro s t h a
  obtain ⟨-, himem, -⟩ := step_keeps_memories h
  rw [himem]

/-- `step_keeps_memories` over k steps. -/
theorem run_keeps_memories {k : Nat} {s t : State} (h : run k s = .next t) :
    t.dmem = s.dmem ∧ t.imem = s.imem ∧ t.trace.length = s.trace.length + k := by
  induction k generalizing s with
  | zero => cases h; exact ⟨rfl, rfl, rfl⟩
  | succ k ih =>
    obtain ⟨u, hstep, hrun⟩ := run_succ_next h
    obtain ⟨hdmem, himem, hlines⟩ := step_keeps_memories hstep
    obtain ⟨hdmem', himem', hlines'⟩ := ih hrun
    exact ⟨hdmem'.trans hdmem, himem'.trans himem, by omega⟩

/-- Settles O56: a launch starts with no line and the memories as loaded. -/
theorem aRunRecordsOneLineForEachStep : Obligations.ARunRecordsOneLineForEachStep := by
  intro prog k t h
  obtain ⟨hdmem, himem, hlines⟩ := run_keeps_memories h
  exact ⟨hlines.trans (Nat.zero_add k), himem, hdmem⟩

/-- Settles O12: IMEM is the program throughout the run, and `fetchWord` reads it by index. -/
theorem fetchReadsTheProgram : Obligations.FetchReadsTheProgram := by
  intro prog k t _ h a w
  obtain ⟨-, himem, -⟩ := run_keeps_memories h
  rw [himem, State.launch_imem]
  exact fetchWord_some_iff prog a w

/-! ## The host's placed word -/

/-- Settles O59: the word stands at the index of the pc, in an IMEM that a launch may hold. -/
theorem aPlacedWordIsFetchedNext : Obligations.APlacedWordIsFetchedNext := by
  intro s nbits w
  obtain ⟨pc, k, hslot, hpc, heq⟩ := s.placeWord_eq (tableWord nbits w)
  have hk := slotIndex_lt_max hslot
  dsimp only
  rw [State.withFetchWord, heq]
  refine ⟨⟨rfl, placeAt_launchOk hk _ _⟩, ?_, rfl, rfl, fun h4 h0 => ?_⟩
  · exact (fetchWord_some_iff _ _ _).2 ⟨k, (slotIndex_some_iff _ _).1 hslot, placeAt_get hk _ _⟩
  · obtain ⟨i, hi⟩ := slotIndex_of_multiple h4 h0
    exact hpc i hi

end Sys2Proof.Safety

/-! PROOFS. The statements of 30_encoding.md. First the codec against the library's bit slices and two's complement;
then each format's fields read back from its word, and a word rebuilt from its fields; then R113's table of masks read
as its columns opcode, funct3 and funct7, which ties the decoder to the table; last the statements from them. -/

namespace Sys2Proof

/-! ## The codec as bit slices and two's complement (R101, R102) -/

theorem extractField_eq_extractLsb' (w : Word) (lowBit width : Nat) :
    extractField w lowBit width = (w.extractLsb' lowBit width).toNat := by
  rw [extractField, Nat.and_two_pow_sub_one_eq_mod, BitVec.extractLsb'_toNat]

theorem regField_eq_extractLsb' (w : Word) (lowBit : Nat) :
    (regField w lowBit).val = (w.extractLsb' lowBit 5).toNat := by
  rw [← extractField_eq_extractLsb', extractField_eq, regField_val]
  rfl

/-- Sign-extending a bit vector's value gives its signed value. -/
theorem signExtend_toNat {n : Nat} (hn : 0 < n) (b : BitVec n) : signExtend b.toNat n = b.toInt := by
  rw [signExtend, testBit_top hn b.isLt, BitVec.toInt_eq_msb_cond, BitVec.msb_eq_decide]
  push_cast
  rfl

theorem signExtend_eq_toInt {v n : Nat} (hn : 0 < n) (hv : v < 2 ^ n) :
    signExtend v n = (BitVec.ofNat n v).toInt := by
  rw [← signExtend_toNat hn, BitVec.toNat_ofNat, Nat.mod_eq_of_lt hv]

theorem signExtend_bounds {v n : Nat} (hn : 0 < n) (hv : v < 2 ^ n) :
    -(2 ^ (n - 1) : Int) ≤ signExtend v n ∧ signExtend v n ≤ 2 ^ (n - 1) - 1 := by
  rw [signExtend_eq_toInt hn hv]
  exact ⟨BitVec.le_toInt _, Int.le_sub_one_of_lt BitVec.toInt_lt⟩

theorem immPattern_eq_toNat (n : Nat) (imm : Int) : immPattern n imm = (BitVec.ofInt n imm).toNat := by
  rw [immPattern, BitVec.toNat_ofInt]
  push_cast
  rfl

theorem immPattern_lt (n : Nat) (imm : Int) : immPattern n imm < 2 ^ n :=
  immPattern_eq_toNat n imm ▸ BitVec.isLt _

theorem immPattern_even {n : Nat} {imm : Int} (hn : 0 < n) (h : imm % 2 = 0) : immPattern n imm % 2 = 0 := by
  have hmod := Int.emod_emod_of_dvd imm (dvd_pow_self (2 : Int) hn.ne')
  rw [immPattern]
  omega

/-- R102 inverts the encoder's pattern of an immediate in range. -/
theorem signExtend_immPattern {n : Nat} {imm : Int} (hn : 0 < n) (hlo : -2 ^ (n - 1) ≤ imm)
    (hhi : imm < 2 ^ (n - 1)) : signExtend (immPattern n imm) n = imm := by
  rw [immPattern_eq_toNat, signExtend_toNat hn, BitVec.toInt_ofInt_eq_self hn hlo hhi]

/-- The low bits of an integer's word are the integer's two's-complement pattern. -/
theorem extractField_ofInt {n : Nat} (hn : n ≤ 32) (e : Int) :
    extractField (BitVec.ofInt 32 e) 0 n = immPattern n e := by
  have hdvd : ((2 ^ n : Nat) : Int) ∣ (2 ^ 32 : Nat) := Int.natCast_dvd_natCast.2 (pow_dvd_pow 2 hn)
  rw [extractField_eq, immPattern_eq_toNat, BitVec.toNat_ofInt, BitVec.toNat_ofInt, Nat.pow_zero, Nat.div_one,
    ← Int.emod_emod_of_dvd e hdvd, Int.toNat_emod (Int.emod_nonneg _ (by decide)) (by positivity), Int.toNat_natCast]

/-! ## The immediates of a word (R108 to R110) -/

theorem shiftLeft_or_eq_add {a b k : Nat} (h : b < 2 ^ k) : a <<< k ||| b = a * 2 ^ k + b := by
  rw [← Nat.shiftLeft_add_eq_or_of_lt h, Nat.shiftLeft_eq]

theorem toNat_append_eq_add {m n : Nat} (x : BitVec m) (y : BitVec n) :
    (x ++ y).toNat = x.toNat * 2 ^ n + y.toNat := by
  rw [BitVec.toNat_append, shiftLeft_or_eq_add y.isLt]

theorem immI_eq_toInt (w : Word) : immI w = (w.extractLsb' 20 12).toInt := by
  rw [immI, extractField_eq_extractLsb', signExtend_toNat (by decide)]

theorem immB_eq_toInt (w : Word) :
    immB w = (w.extractLsb' 31 1 ++ w.extractLsb' 7 1 ++ w.extractLsb' 25 6 ++ w.extractLsb' 8 4
      ++ (0 : BitVec 1) : BitVec 13).toInt := by
  have hzero : (0 : BitVec 1).toNat = 0 := rfl
  rw [← signExtend_toNat (by decide), immB]
  refine congrArg (signExtend · 13) ?_
  simp only [toNat_append_eq_add, extractField_eq_extractLsb', hzero]
  omega

theorem immJ_eq_toInt (w : Word) :
    immJ w = (w.extractLsb' 31 1 ++ w.extractLsb' 12 8 ++ w.extractLsb' 20 1 ++ w.extractLsb' 21 10
      ++ (0 : BitVec 1) : BitVec 21).toInt := by
  have hzero : (0 : BitVec 1).toNat = 0 := rfl
  rw [← signExtend_toNat (by decide), immJ]
  refine congrArg (signExtend · 21) ?_
  simp only [toNat_append_eq_add, extractField_eq_extractLsb', hzero]
  omega

theorem immI_bounds (w : Word) : -2048 ≤ immI w ∧ immI w ≤ 2047 :=
  signExtend_bounds (by decide) (extractField_lt _ _ _)

/-- The upper end is one less than two's complement gives, as the immediate is even (R109). -/
theorem immB_bounds (w : Word) : -4096 ≤ immB w ∧ immB w ≤ 4094 := by
  have heven := immB_even w
  obtain ⟨b, hb⟩ : ∃ b : BitVec 13, immB w = b.toInt := ⟨_, immB_eq_toInt w⟩
  have hlo := b.le_toInt
  have hhi := b.toInt_lt
  omega

/-- The upper end is one less than two's complement gives, as the immediate is even (R110). -/
theorem immJ_bounds (w : Word) : -1048576 ≤ immJ w ∧ immJ w ≤ 1048574 := by
  have heven := immJ_even w
  obtain ⟨b, hb⟩ : ∃ b : BitVec 21, immJ w = b.toInt := ⟨_, immJ_eq_toInt w⟩
  have hlo := b.le_toInt
  have hhi := b.toInt_lt
  omega

theorem immIOk_immI (w : Word) : immIOk (immI w) = true := decide_eq_true (immI_bounds w)

theorem immBOk_immB (w : Word) : immBOk (immB w) = true :=
  decide_eq_true ⟨(immB_bounds w).1, (immB_bounds w).2, immB_even w⟩

theorem immJOk_immJ (w : Word) : immJOk (immJ w) = true :=
  decide_eq_true ⟨(immJ_bounds w).1, (immJ_bounds w).2, immJ_even w⟩

/-! ## The scattered parts of a pattern -/

theorem bitsOf_lt (v hi lo : Nat) : bitsOf v hi lo < 2 ^ (hi + 1 - lo) := Nat.mod_lt _ (Nat.two_pow_pos _)

/-- The B format's parts hold the whole of an even pattern (R109). -/
theorem immB_bitsOf {p : Nat} (hp : p < 2 ^ 13) (heven : p % 2 = 0) :
    bitsOf p 12 12 * 2 ^ 12 + bitsOf p 11 11 * 2 ^ 11 + bitsOf p 10 5 * 2 ^ 5 + bitsOf p 4 1 * 2 = p := by
  simp only [bitsOf]
  omega

/-- The J format's parts hold the whole of an even pattern (R110). -/
theorem immJ_bitsOf {p : Nat} (hp : p < 2 ^ 21) (heven : p % 2 = 0) :
    bitsOf p 20 20 * 2 ^ 20 + bitsOf p 19 12 * 2 ^ 12 + bitsOf p 11 11 * 2 ^ 11 + bitsOf p 10 1 * 2 = p := by
  simp only [bitsOf]
  omega

theorem bitsOf_immB {p a b c d : Nat} (hp : p = a * 2 ^ 12 + b * 2 ^ 11 + c * 2 ^ 5 + d * 2)
    (ha : a < 2) (hb : b < 2) (hc : c < 64) (hd : d < 16) :
    bitsOf p 12 12 = a ∧ bitsOf p 11 11 = b ∧ bitsOf p 10 5 = c ∧ bitsOf p 4 1 = d := by
  simp only [bitsOf]
  omega

theorem bitsOf_immJ {p a b c d : Nat} (hp : p = a * 2 ^ 20 + b * 2 ^ 12 + c * 2 ^ 11 + d * 2)
    (ha : a < 2) (hb : b < 256) (hc : c < 2) (hd : d < 1024) :
    bitsOf p 20 20 = a ∧ bitsOf p 19 12 = b ∧ bitsOf p 11 11 = c ∧ bitsOf p 10 1 = d := by
  simp only [bitsOf]
  omega

/-! ## A format's word holds its fields (R103) -/

theorem fields_encodeR {f7 f3 op : Nat} (h7 : f7 < 2 ^ 7) (h3 : f3 < 2 ^ 3) (hop : op < 2 ^ 7) (rd rs1 rs2 : Reg) :
    funct7Of (encodeR f7 f3 op rd rs1 rs2) = f7 ∧ funct3Of (encodeR f7 f3 op rd rs1 rs2) = f3 ∧
    rdOf (encodeR f7 f3 op rd rs1 rs2) = rd ∧ rs1Of (encodeR f7 f3 op rd rs1 rs2) = rs1 ∧
    rs2Of (encodeR f7 f3 op rd rs1 rs2) = rs2 := by
  simp only [funct7Of, funct3Of, rdOf, rs1Of, rs2Of, Fin.ext_iff, regField_val, extractField_eq, encodeR,
    BitVec.toNat_ofNat]
  refine ⟨?_, ?_, ?_, ?_, ?_⟩ <;> omega

theorem fields_encodeI {f3 op : Nat} (h3 : f3 < 2 ^ 3) (hop : op < 2 ^ 7) (rd rs1 : Reg) (imm : Int) :
    funct3Of (encodeI f3 op rd rs1 imm) = f3 ∧ rdOf (encodeI f3 op rd rs1 imm) = rd ∧
    rs1Of (encodeI f3 op rd rs1 imm) = rs1 ∧
    extractField (encodeI f3 op rd rs1 imm) 20 12 = immPattern 12 imm := by
  have hlt := immPattern_lt 12 imm
  simp only [funct3Of, rdOf, rs1Of, Fin.ext_iff, regField_val, extractField_eq, encodeI, BitVec.toNat_ofNat]
  refine ⟨?_, ?_, ?_, ?_⟩ <;> omega

theorem fields_encodeB {f3 op : Nat} (h3 : f3 < 2 ^ 3) (hop : op < 2 ^ 7) (rs1 rs2 : Reg) (imm : Int) :
    funct3Of (encodeB f3 op rs1 rs2 imm) = f3 ∧ rs1Of (encodeB f3 op rs1 rs2 imm) = rs1 ∧
    rs2Of (encodeB f3 op rs1 rs2 imm) = rs2 ∧
    extractField (encodeB f3 op rs1 rs2 imm) 31 1 = bitsOf (immPattern 13 imm) 12 12 ∧
    extractField (encodeB f3 op rs1 rs2 imm) 7 1 = bitsOf (immPattern 13 imm) 11 11 ∧
    extractField (encodeB f3 op rs1 rs2 imm) 25 6 = bitsOf (immPattern 13 imm) 10 5 ∧
    extractField (encodeB f3 op rs1 rs2 imm) 8 4 = bitsOf (immPattern 13 imm) 4 1 := by
  have hb12 := bitsOf_lt (immPattern 13 imm) 12 12
  have hb11 := bitsOf_lt (immPattern 13 imm) 11 11
  have hb10 := bitsOf_lt (immPattern 13 imm) 10 5
  have hb4 := bitsOf_lt (immPattern 13 imm) 4 1
  simp only [funct3Of, rs1Of, rs2Of, Fin.ext_iff, regField_val, extractField_eq, encodeB, BitVec.toNat_ofNat]
  refine ⟨?_, ?_, ?_, ?_, ?_, ?_, ?_⟩ <;> omega

theorem fields_encodeJ {op : Nat} (hop : op < 2 ^ 7) (rd : Reg) (imm : Int) :
    rdOf (encodeJ op rd imm) = rd ∧
    extractField (encodeJ op rd imm) 31 1 = bitsOf (immPattern 21 imm) 20 20 ∧
    extractField (encodeJ op rd imm) 12 8 = bitsOf (immPattern 21 imm) 19 12 ∧
    extractField (encodeJ op rd imm) 20 1 = bitsOf (immPattern 21 imm) 11 11 ∧
    extractField (encodeJ op rd imm) 21 10 = bitsOf (immPattern 21 imm) 10 1 := by
  have hb20 := bitsOf_lt (immPattern 21 imm) 20 20
  have hb19 := bitsOf_lt (immPattern 21 imm) 19 12
  have hb11 := bitsOf_lt (immPattern 21 imm) 11 11
  have hb10 := bitsOf_lt (immPattern 21 imm) 10 1
  simp only [rdOf, Fin.ext_iff, regField_val, extractField_eq, encodeJ, BitVec.toNat_ofNat]
  refine ⟨?_, ?_, ?_, ?_, ?_⟩ <;> omega

theorem immI_encodeI {f3 op : Nat} (h3 : f3 < 2 ^ 3) (hop : op < 2 ^ 7) (rd rs1 : Reg) {imm : Int}
    (himm : immIOk imm = true) : immI (encodeI f3 op rd rs1 imm) = imm := by
  obtain ⟨hlo, hhi⟩ := of_decide_eq_true himm
  obtain ⟨-, -, -, hfield⟩ := fields_encodeI h3 hop rd rs1 imm
  rw [immI, hfield, signExtend_immPattern (by decide) (by omega) (by omega)]

theorem immB_encodeB {f3 op : Nat} (h3 : f3 < 2 ^ 3) (hop : op < 2 ^ 7) (rs1 rs2 : Reg) {imm : Int}
    (himm : immBOk imm = true) : immB (encodeB f3 op rs1 rs2 imm) = imm := by
  obtain ⟨hlo, hhi, heven⟩ := of_decide_eq_true himm
  obtain ⟨-, -, -, hb12, hb11, hb10, hb4⟩ := fields_encodeB h3 hop rs1 rs2 imm
  rw [immB, hb12, hb11, hb10, hb4, immB_bitsOf (immPattern_lt 13 imm) (immPattern_even (by decide) heven),
    signExtend_immPattern (by decide) (by omega) (by omega)]

theorem immJ_encodeJ {op : Nat} (hop : op < 2 ^ 7) (rd : Reg) {imm : Int} (himm : immJOk imm = true) :
    immJ (encodeJ op rd imm) = imm := by
  obtain ⟨hlo, hhi, heven⟩ := of_decide_eq_true himm
  obtain ⟨-, hb20, hb19, hb11, hb10⟩ := fields_encodeJ hop rd imm
  rw [immJ, hb20, hb19, hb11, hb10, immJ_bitsOf (immPattern_lt 21 imm) (immPattern_even (by decide) heven),
    signExtend_immPattern (by decide) (by omega) (by omega)]

/-! ## A word is the format's word of its own fields (R103) -/

theorem ofNat_eq_of_eq_toNat {x : Nat} {w : Word} (h : x = w.toNat) : BitVec.ofNat 32 x = w := by
  rw [h, BitVec.ofNat_toNat, BitVec.setWidth_eq]

/-- A word is its R-format fields, put back in place. -/
theorem recompose_R (x : Nat) :
    x / 2 ^ 25 * 2 ^ 25 + x / 2 ^ 20 % 32 * 2 ^ 20 + x / 2 ^ 15 % 32 * 2 ^ 15 + x / 2 ^ 12 % 2 ^ 3 * 2 ^ 12
      + x / 2 ^ 7 % 32 * 2 ^ 7 + x % 2 ^ 7 = x := by
  omega

/-- A word is its I-format fields, put back in place. -/
theorem recompose_I (x : Nat) :
    x / 2 ^ 20 * 2 ^ 20 + x / 2 ^ 15 % 32 * 2 ^ 15 + x / 2 ^ 12 % 2 ^ 3 * 2 ^ 12 + x / 2 ^ 7 % 32 * 2 ^ 7
      + x % 2 ^ 7 = x := by
  omega

theorem encodeR_fields (w : Word) :
    encodeR (funct7Of w) (funct3Of w) (opcodeOf w) (rdOf w) (rs1Of w) (rs2Of w) = w := by
  have hlt := w.isLt
  have htop : w.toNat / 2 ^ 25 % 2 ^ 7 = w.toNat / 2 ^ 25 := Nat.mod_eq_of_lt (by omega)
  simp only [encodeR, funct7Of, funct3Of, opcodeOf, extractField_eq, rdOf, rs1Of, rs2Of, regField_val, htop,
    Nat.pow_zero, Nat.div_one]
  exact ofNat_eq_of_eq_toNat (recompose_R w.toNat)

theorem encodeI_fields (w : Word) :
    encodeI (funct3Of w) (opcodeOf w) (rdOf w) (rs1Of w) (immI w) = w := by
  have hlt := w.isLt
  have htop : w.toNat / 2 ^ 20 % 2 ^ 12 = w.toNat / 2 ^ 20 := Nat.mod_eq_of_lt (by omega)
  rw [encodeI, immI, immPattern_signExtend (by decide) (extractField_lt _ _ _)]
  simp only [funct3Of, opcodeOf, extractField_eq, rdOf, rs1Of, regField_val, htop, Nat.pow_zero, Nat.div_one]
  exact ofNat_eq_of_eq_toNat (recompose_I w.toNat)

theorem encodeB_fields (w : Word) :
    encodeB (funct3Of w) (opcodeOf w) (rs1Of w) (rs2Of w) (immB w) = w := by
  have hlt := w.isLt
  have hp := immPattern_signExtend (by decide : 0 < 13) (v := w.toNat / 2 ^ 31 * 2 ^ 12
    + w.toNat / 2 ^ 7 % 2 * 2 ^ 11 + w.toNat / 2 ^ 25 % 2 ^ 6 * 2 ^ 5 + w.toNat / 2 ^ 8 % 2 ^ 4 * 2) (by omega)
  rw [← immB_eq] at hp
  obtain ⟨hb12, hb11, hb10, hb4⟩ := bitsOf_immB hp (by omega) (by omega) (by omega) (by omega)
  simp only [encodeB, hb12, hb11, hb10, hb4, funct3Of, opcodeOf, extractField_eq, rs1Of, rs2Of, regField_val,
    Nat.pow_zero, Nat.div_one]
  exact ofNat_eq_of_eq_toNat (recompose_B w.toNat)

theorem encodeJ_fields (w : Word) : encodeJ (opcodeOf w) (rdOf w) (immJ w) = w := by
  have hlt := w.isLt
  have hp := immPattern_signExtend (by decide : 0 < 21) (v := w.toNat / 2 ^ 31 * 2 ^ 20
    + w.toNat / 2 ^ 12 % 2 ^ 8 * 2 ^ 12 + w.toNat / 2 ^ 20 % 2 * 2 ^ 11 + w.toNat / 2 ^ 21 % 2 ^ 10 * 2) (by omega)
  rw [← immJ_eq] at hp
  obtain ⟨hb20, hb19, hb11, hb10⟩ := bitsOf_immJ hp (by omega) (by omega) (by omega) (by omega)
  simp only [encodeJ, hb20, hb19, hb11, hb10, opcodeOf, extractField_eq, rdOf, regField_val, Nat.pow_zero,
    Nat.div_one]
  exact ofNat_eq_of_eq_toNat (recompose_J w.toNat)

/-! ## Masks over fields (R113) -/

theorem opcodeOf_lt (w : Word) : opcodeOf w < 2 ^ 7 := extractField_lt _ _ _

theorem funct3Of_lt (w : Word) : funct3Of w < 2 ^ 3 := extractField_lt _ _ _

/-- A mask over one field keeps the field in its place. -/
theorem and_fieldMask (w : Word) (lowBit width : Nat) :
    w.toNat &&& (2 ^ width - 1) <<< lowBit = extractField w lowBit width <<< lowBit := by
  refine Nat.eq_of_testBit_eq fun i => ?_
  simp only [extractField, Nat.testBit_and, Nat.testBit_shiftLeft, Nat.testBit_shiftRight]
  by_cases h : lowBit ≤ i <;> simp [h]

/-- The mask of the opcode keeps that field. -/
theorem toNat_and_opcodeMask (w : Word) : (w &&& 0x0000007F).toNat = opcodeOf w := by
  have hmask : (0x0000007F : Word).toNat = (2 ^ 7 - 1) <<< 0 := rfl
  rw [BitVec.toNat_and, hmask, and_fieldMask, ← opcodeOf, Nat.shiftLeft_zero]

/-- The mask of opcode and funct3 keeps those two fields. -/
theorem toNat_and_funct3Mask (w : Word) : (w &&& 0x0000707F).toNat = funct3Of w * 2 ^ 12 + opcodeOf w := by
  have hop := opcodeOf_lt w
  have hmask : (0x0000707F : Word).toNat = (2 ^ 3 - 1) <<< 12 ||| (0x0000007F : Word).toNat := rfl
  rw [BitVec.toNat_and, hmask, Nat.and_or_distrib_left, and_fieldMask, ← BitVec.toNat_and, toNat_and_opcodeMask,
    ← funct3Of, shiftLeft_or_eq_add (by omega)]

/-- The mask of opcode, funct3 and funct7 keeps those three fields. -/
theorem toNat_and_funct7Mask (w : Word) :
    (w &&& 0xFE00707F).toNat = funct7Of w * 2 ^ 25 + (funct3Of w * 2 ^ 12 + opcodeOf w) := by
  have hop := opcodeOf_lt w
  have h3 := funct3Of_lt w
  have hmask : (0xFE00707F : Word).toNat = (2 ^ 7 - 1) <<< 25 ||| (0x0000707F : Word).toNat := rfl
  rw [BitVec.toNat_and, hmask, Nat.and_or_distrib_left, and_fieldMask, ← BitVec.toNat_and, toNat_and_funct3Mask,
    ← funct7Of, shiftLeft_or_eq_add (by omega)]

end Sys2Proof

namespace Sys2Proof.Safety

open Sys2Proof Sys2Proof.Machine

/-! ## R113's table by its columns -/

/-- A row that compares opcode, funct3 and funct7, and builds an R-format instruction. -/
def rowR (f7 f3 : Nat) (build : Reg → Reg → Reg → Instr) : MaskRow where
  matchBits := BitVec.ofNat 32 (f7 * 2 ^ 25 + (f3 * 2 ^ 12 + opRegReg))
  mask := 0xFE00707F
  build w := build (rdOf w) (rs1Of w) (rs2Of w)

/-- A row that compares opcode and funct3, and builds an I-format instruction. -/
def rowI (f3 op : Nat) (build : Reg → Reg → Int → Instr) : MaskRow where
  matchBits := BitVec.ofNat 32 (f3 * 2 ^ 12 + op)
  mask := 0x0000707F
  build w := build (rdOf w) (rs1Of w) (immI w)

/-- A row that compares opcode and funct3, and builds a branch. -/
def rowB (f3 : Nat) (build : Reg → Reg → Int → Instr) : MaskRow where
  matchBits := BitVec.ofNat 32 (f3 * 2 ^ 12 + opBranch)
  mask := 0x0000707F
  build w := build (rs1Of w) (rs2Of w) (immB w)

/-- The row of `jal`, which compares the opcode alone. -/
def rowJ : MaskRow where
  matchBits := BitVec.ofNat 32 opJal
  mask := 0x0000007F
  build w := .jal (rdOf w) (immJ w)

/-- R113's match and mask words say what its columns opcode, funct3 and funct7 say. -/
theorem maskRows_eq : maskRows = [
    rowR f7Base f3AddSub .add, rowR f7Sub f3AddSub .sub, rowR f7Base f3Slt .slt, rowR f7Base f3Srl .srl,
    rowR f7Base f3Or .or, rowR f7Base f3And .and,
    rowI f3Addi opRegImm .addi, rowI f3Lw opLoad .lw, rowI f3Jalr opJalr .jalr,
    rowB f3Beq .beq, rowB f3Bne .bne, rowB f3Blt .blt, rowJ] := rfl

theorem selects_iff_toNat (r : MaskRow) (w : Word) : r.Selects w ↔ (w &&& r.mask).toNat = r.matchBits.toNat :=
  BitVec.toNat_inj.symm

theorem selects_rowR {f7 f3 : Nat} (h7 : f7 < 2 ^ 7) (h3 : f3 < 2 ^ 3) {build : Reg → Reg → Reg → Instr}
    {w : Word} : (rowR f7 f3 build).Selects w ↔ funct7Of w = f7 ∧ funct3Of w = f3 ∧ opcodeOf w = opRegReg := by
  have h3w := funct3Of_lt w
  have hopw := opcodeOf_lt w
  rw [selects_iff_toNat, rowR, toNat_and_funct7Mask, BitVec.toNat_ofNat, opRegReg]
  omega

theorem selects_rowI {f3 op : Nat} (h3 : f3 < 2 ^ 3) (hop : op < 2 ^ 7) {build : Reg → Reg → Int → Instr}
    {w : Word} : (rowI f3 op build).Selects w ↔ funct3Of w = f3 ∧ opcodeOf w = op := by
  have hopw := opcodeOf_lt w
  rw [selects_iff_toNat, rowI, toNat_and_funct3Mask, BitVec.toNat_ofNat]
  omega

/-- A branch's row has the match and mask of an I-format row. -/
theorem selects_rowB {f3 : Nat} (h3 : f3 < 2 ^ 3) {build : Reg → Reg → Int → Instr} {w : Word} :
    (rowB f3 build).Selects w ↔ funct3Of w = f3 ∧ opcodeOf w = opBranch :=
  selects_rowI (build := build) h3 (by decide)

theorem selects_rowJ {w : Word} : rowJ.Selects w ↔ opcodeOf w = opJal := by
  rw [selects_iff_toNat, rowJ, toNat_and_opcodeMask]
  rfl

/-! ## The decoder follows the table (R112 to R115) -/

/-- The row that selects a word is the one the decoder takes. -/
theorem decode_of_selects {r : MaskRow} (hr : r ∈ maskRows) {w : Word} (h : r.Selects w) :
    decode w = .instr (r.build w) := by
  revert r
  simp only [maskRows_eq, List.forall_mem_cons, List.not_mem_nil, IsEmpty.forall_iff, implies_true, and_true]
  refine ⟨?_, ?_, ?_, ?_, ?_, ?_, ?_, ?_, ?_, ?_, ?_, ?_, fun h => ?_⟩
  iterate 6
    · intro h
      obtain ⟨h7, h3, hop⟩ := (selects_rowR (by decide) (by decide)).1 h
      rw [decode, hop, if_pos rfl, decodeRegReg, h7, h3]
      rfl
  iterate 3
    · intro h
      obtain ⟨h3, hop⟩ := (selects_rowI (by decide) (by decide)).1 h
      rw [decode, hop]
      exact if_pos h3
  iterate 3
    · intro h
      obtain ⟨h3, hop⟩ := (selects_rowB (by decide)).1 h
      have hclass : decode w = decodeBranch w := by rw [decode, hop]; rfl
      rw [hclass, decodeBranch, h3]
      rfl
  · rw [decode, selects_rowJ.1 h]
    rfl

/-- Wherever the decoder takes an instruction, the fields it compared are those of a row. -/
theorem decode_of_no_row {w : Word} (h : ∀ r ∈ maskRows, ¬ r.Selects w) : decode w = .unsupported w := by
  simp (disch := decide) only [maskRows_eq, List.forall_mem_cons, selects_rowR, selects_rowI, selects_rowB,
    selects_rowJ] at h
  obtain ⟨hadd, hsub, hslt, hsrl, hor, hand, haddi, hlw, hjalr, hbeq, hbne, hblt, hjal, -⟩ := h
  rw [decode, if_neg hjal]
  split_ifs with hop hop hop hop hop
  · rw [decodeRegReg]
    split_ifs with h7 h3 h3 h3 h3 h3 hf
    · exact absurd ⟨h7, h3, hop⟩ hadd
    · exact absurd ⟨h7, h3, hop⟩ hslt
    · exact absurd ⟨h7, h3, hop⟩ hsrl
    · exact absurd ⟨h7, h3, hop⟩ hor
    · exact absurd ⟨h7, h3, hop⟩ hand
    · rfl
    · exact absurd ⟨hf.1, hf.2, hop⟩ hsub
    · rfl
  · exact if_neg fun h3 => haddi ⟨h3, hop⟩
  · exact if_neg fun h3 => hlw ⟨h3, hop⟩
  · exact if_neg fun h3 => hjalr ⟨h3, hop⟩
  · rw [decodeBranch, if_neg fun h3 => hbeq ⟨h3, hop⟩, if_neg fun h3 => hbne ⟨h3, hop⟩,
      if_neg fun h3 => hblt ⟨h3, hop⟩]
  · rfl

/-- Every instruction the decoder answers is built by a row that selects the word. -/
theorem exists_row_of_decode {w : Word} {i : Instr} (h : decode w = .instr i) :
    ∃ r ∈ maskRows, r.Selects w ∧ r.build w = i := by
  by_cases hrow : ∃ r ∈ maskRows, r.Selects w
  · obtain ⟨r, hr, hsel⟩ := hrow
    rw [decode_of_selects hr hsel] at h
    exact ⟨r, hr, hsel, Decoded.instr.inj h⟩
  · rw [decode_of_no_row fun r hr hsel => hrow ⟨r, hr, hsel⟩] at h
    cases h

/-- What a row builds from a word it selects is well-formed, and the word is its encoding: the row's columns and
the format's fields are all of the word's bits. -/
theorem wellFormed_and_encode_build {r : MaskRow} (hr : r ∈ maskRows) {w : Word} (h : r.Selects w) :
    (r.build w).wellFormed = true ∧ encode (r.build w) = w := by
  revert r
  simp only [maskRows_eq, List.forall_mem_cons, List.not_mem_nil, IsEmpty.forall_iff, implies_true, and_true]
  refine ⟨?_, ?_, ?_, ?_, ?_, ?_, ?_, ?_, ?_, ?_, ?_, ?_, fun h => ?_⟩
  iterate 6
    · intro h
      obtain ⟨h7, h3, hop⟩ := (selects_rowR (by decide) (by decide)).1 h
      have hw := encodeR_fields w
      rw [h7, h3, hop] at hw
      exact ⟨rfl, hw⟩
  iterate 3
    · intro h
      obtain ⟨h3, hop⟩ := (selects_rowI (by decide) (by decide)).1 h
      have hw := encodeI_fields w
      rw [h3, hop] at hw
      exact ⟨immIOk_immI w, hw⟩
  iterate 3
    · intro h
      obtain ⟨h3, hop⟩ := (selects_rowB (by decide)).1 h
      have hw := encodeB_fields w
      rw [h3, hop] at hw
      exact ⟨immBOk_immB w, hw⟩
  · have hw := encodeJ_fields w
    rw [selects_rowJ.1 h] at hw
    exact ⟨immJOk_immJ w, hw⟩

/-! ## Decoding the word of each format -/

theorem decode_encodeR {f7 f3 : Nat} {build : Reg → Reg → Reg → Instr} (hr : rowR f7 f3 build ∈ maskRows)
    (h7 : f7 < 2 ^ 7) (h3 : f3 < 2 ^ 3) (rd rs1 rs2 : Reg) :
    decode (encodeR f7 f3 opRegReg rd rs1 rs2) = .instr (build rd rs1 rs2) := by
  have hop : opRegReg < 2 ^ 7 := by decide
  obtain ⟨hf7, hf3, hrd, hrs1, hrs2⟩ := fields_encodeR h7 h3 hop rd rs1 rs2
  have hclass := Laws.EncodedOpcode.opcodeOf_encodeR f7 f3 opRegReg hop rd rs1 rs2
  rw [decode_of_selects hr ((selects_rowR h7 h3).2 ⟨hf7, hf3, hclass⟩)]
  simp only [rowR, hrd, hrs1, hrs2]

theorem decode_encodeI {f3 op : Nat} {build : Reg → Reg → Int → Instr} (hr : rowI f3 op build ∈ maskRows)
    (h3 : f3 < 2 ^ 3) (hop : op < 2 ^ 7) (rd rs1 : Reg) {imm : Int} (himm : immIOk imm = true) :
    decode (encodeI f3 op rd rs1 imm) = .instr (build rd rs1 imm) := by
  obtain ⟨hf3, hrd, hrs1, -⟩ := fields_encodeI h3 hop rd rs1 imm
  have hclass := Laws.EncodedOpcode.opcodeOf_encodeI f3 op hop rd rs1 imm
  rw [decode_of_selects hr ((selects_rowI h3 hop).2 ⟨hf3, hclass⟩)]
  simp only [rowI, hrd, hrs1, immI_encodeI h3 hop rd rs1 himm]

theorem decode_encodeB {f3 : Nat} {build : Reg → Reg → Int → Instr} (hr : rowB f3 build ∈ maskRows)
    (h3 : f3 < 2 ^ 3) (rs1 rs2 : Reg) {imm : Int} (himm : immBOk imm = true) :
    decode (encodeB f3 opBranch rs1 rs2 imm) = .instr (build rs1 rs2 imm) := by
  have hop : opBranch < 2 ^ 7 := by decide
  obtain ⟨hf3, hrs1, hrs2, -⟩ := fields_encodeB h3 hop rs1 rs2 imm
  have hclass := Laws.EncodedOpcode.opcodeOf_encodeB f3 opBranch hop rs1 rs2 imm
  rw [decode_of_selects hr ((selects_rowB h3).2 ⟨hf3, hclass⟩)]
  simp only [rowB, hrs1, hrs2, immB_encodeB h3 hop rs1 rs2 himm]

theorem decode_encodeJ (hr : rowJ ∈ maskRows) (rd : Reg) {imm : Int} (himm : immJOk imm = true) :
    decode (encodeJ opJal rd imm) = .instr (.jal rd imm) := by
  have hop : opJal < 2 ^ 7 := by decide
  obtain ⟨hrd, -⟩ := fields_encodeJ hop rd imm
  have hclass := Laws.EncodedOpcode.opcodeOf_encodeJ opJal hop rd imm
  rw [decode_of_selects hr (selects_rowJ.2 hclass)]
  simp only [rowJ, hrd, immJ_encodeJ hop rd himm]

/-! ## The two round trips -/

/-- Settles O1: the instruction's row selects its word, and each field reads back as it was laid out. -/
theorem decodeOfEncode : Obligations.DecodeOfEncode := by
  intro i hi
  cases i with
  | add | sub | slt | srl | or | and => exact decode_encodeR (by simp [maskRows_eq]) (by decide) (by decide) _ _ _
  | addi | lw | jalr => exact decode_encodeI (by simp [maskRows_eq]) (by decide) (by decide) _ _ hi
  | beq | bne | blt => exact decode_encodeB (by simp [maskRows_eq]) (by decide) _ _ hi
  | jal => exact decode_encodeJ (by simp [maskRows_eq]) _ hi

/-- Settles O2: the decoded instruction is built by a row that selects the word, so the word is its encoding. -/
theorem encodeOfDecode : Obligations.EncodeOfDecode := by
  intro w i h
  obtain ⟨r, hr, hsel, rfl⟩ := exists_row_of_decode h
  exact wellFormed_and_encode_build hr hsel

/-! ## The table -/

/-- Settles O3: both halves are the decoder's lemmas about the table. -/
theorem decodeFollowsTheMaskTable : Obligations.DecodeFollowsTheMaskTable := fun _ =>
  ⟨fun _ hr h => decode_of_selects hr h, decode_of_no_row⟩

/-- Settles O4: two rows' match words differ in a bit that both masks cover, and a word selected by both would have
that bit twice. -/
theorem noWordMatchesTwoMaskRows : Obligations.NoWordMatchesTwoMaskRows := by
  have hdiffer : maskRows.Pairwise (fun r q => r.matchBits &&& q.mask ≠ q.matchBits &&& r.mask) := by decide
  refine hdiffer.imp fun {r q} hne w ⟨hr, hq⟩ => hne ?_
  rw [← hr, ← hq, BitVec.and_assoc, BitVec.and_assoc, BitVec.and_comm r.mask]

/-- Settles O39: no row selects the word, so it is reported, and the step writes nothing and advances by 4. -/
theorem unlistedWordsRunAsNoOps : Obligations.UnlistedWordsRunAsNoOps := by
  intro s w ⟨hs, hl⟩ hf hno
  have hstep : step s = .next (((s.raiseUnsupported w).writeback none).advance 4) := by
    rw [step_of_fetch hs hl hf, decode_of_no_row hno, execDecoded, execUnsupported_eq_retire, State.retire_goOn]
  refine ⟨_, hstep, ⟨?_, fun r hr => ?_⟩, ⟨fun a => ?_, fun a => ?_, ?_⟩, ?_, rfl, ?_, ?_, ?_, ?_⟩
  case refine_2 => simp [State.writeback_none_reg, hr]
  case refine_6 => simp [hs]
  case refine_7 => exact Word.wrap_uval_add s.pc 4
  all_goals simp

/-! ## The codec's fields and immediates -/

/-- Settles O5: each field is the library's slice at its position. -/
theorem registerFieldsAndImmIAreSlices : Obligations.RegisterFieldsAndImmIAreSlices := fun w =>
  ⟨regField_eq_extractLsb' w 7, regField_eq_extractLsb' w 15, regField_eq_extractLsb' w 20,
    extractField_eq_extractLsb' w 12 3, extractField_eq_extractLsb' w 25 7, extractField_eq_extractLsb' w 0 7,
    immI_eq_toInt w⟩

/-- Settles O6. -/
theorem branchImmediateScatter : Obligations.BranchImmediateScatter := fun w =>
  ⟨immB_eq_toInt w, immB_even w, immB_bounds w⟩

/-- Settles O7. -/
theorem jumpImmediateScatter : Obligations.JumpImmediateScatter := fun w =>
  ⟨immJ_eq_toInt w, immJ_even w, immJ_bounds w⟩

/-- Settles O8: the codec's mask and shift are the library's slice, inside the word and past it. -/
theorem extractFieldIsTheBitSlice : Obligations.ExtractFieldIsTheBitSlice := fun w lowBit width _ =>
  extractField_eq_extractLsb' w lowBit width

/-- Settles O9: what holds at every width from 1 to 32, at the three that R102 names. -/
theorem signExtendIsExactTwosComplement : Obligations.SignExtendIsExactTwosComplement := by
  intro n hn v hv
  obtain ⟨hpos, hle⟩ : 0 < n ∧ n ≤ 32 := by
    simp only [List.mem_cons, List.not_mem_nil, or_false] at hn
    omega
  obtain ⟨hlo, hhi⟩ := signExtend_bounds hpos hv
  refine ⟨signExtend_eq_toInt hpos hv, hlo, hhi, ?_⟩
  rw [extractField_ofInt hle, immPattern_signExtend hpos hv]

/-- Settles O10: nine fixed words, evaluated. -/
theorem sampleWordsDecode : Obligations.SampleWordsDecode := by
  unfold Obligations.SampleWordsDecode
  decide

end Sys2Proof.Safety

/-! PROOFS. The statements of 40_execution.md. First how the text of a word is written and read; then the loader, the
halting effect and the exhausted step; then each statement from them. -/

namespace Sys2Proof.Machine

/-! ## Numerals (R66, R171) -/

/-- Reading n digits in base b, most significant first, gives the number they are the digits of. -/
theorem foldl_digits {b n x : Nat} {val : Char → Nat} {digit : Nat → Char}
    (h : ∀ i < n, val (digit i) = x / b ^ (n - 1 - i) % b) :
    ((List.range n).map digit).foldl (fun m c => b * m + val c) 0 = x % b ^ n := by
  induction n generalizing x with
  | zero => simp [Nat.mod_one]
  | succ n ih =>
    have hinit : ((List.range n).map digit).foldl (fun m c => b * m + val c) 0 = x / b % b ^ n := by
      refine ih fun i hi => ?_
      rw [h i (by omega), Nat.div_div_eq_div_mul, ← Nat.pow_succ']
      congr 3
      omega
    have hlast : val (digit n) = x % b := by simpa using h n (by omega)
    rw [List.range_succ, List.map_append, List.foldl_append, hinit, List.map_singleton, List.foldl_cons,
      List.foldl_nil, hlast, Nat.pow_succ', Nat.mod_mul, Nat.add_comm]

/-- A binary numeral writes its word, most significant bit first (D9). -/
theorem lineValue_binaryText (w : Word) : lineValue (binaryText w) = w.toNat := by
  have hdigits := foldl_digits (b := 2) (n := 32) (x := w.toNat) (val := fun c => if c = '1' then 1 else 0)
    (digit := fun i => if w.getLsbD (31 - i) then '1' else '0') fun i _ => by
      rw [← Nat.toNat_testBit, ← BitVec.getLsbD]
      cases w.getLsbD (31 - i) <;> rfl
  rw [Nat.mod_eq_of_lt w.isLt] at hdigits
  exact hdigits

theorem isBinaryLine_binaryText (w : Word) : isBinaryLine (binaryText w) = true := by
  have hall : ∀ c ∈ binaryText w, c = '0' ∨ c = '1' := fun _ => binaryText_digit
  simpa [isBinaryLine] using hall

theorem parseLine_binaryText (w : Word) : parseLine (binaryText w) = some w := by
  rw [parseLine, if_pos (isBinaryLine_binaryText w), lineValue_binaryText, BitVec.ofNat_toNat, BitVec.setWidth_eq]

/-- A binary line starts with a digit, which is no white space. -/
theorem isBlank_of_isBinaryLine {line : List Char} (h : isBinaryLine line = true) : isBlank line = false := by
  match line, h with
  | c :: rest, h =>
    obtain ⟨-, hc, -⟩ : rest.length + 1 = 32 ∧ (c = '0' ∨ c = '1') ∧ ∀ d ∈ rest, d = '0' ∨ d = '1' := by
      simpa [isBinaryLine] using h
    have hspace : c.isWhitespace = false := by rcases hc with rfl | rfl <;> decide
    simp [isBlank, hspace]

/-- Eight hexadecimal digits write any 32-bit address (R171). -/
theorem foldl_hexText {a : Nat} (ha : a < 2 ^ 32) :
    (hexText a).foldl (fun n c => 16 * n + "0123456789ABCDEF".toList.idxOf c) 0 = a := by
  have hdigits := foldl_digits (b := 16) (n := 8) (x := a) (val := fun c => "0123456789ABCDEF".toList.idxOf c)
    (digit := fun i => hexDigit (a / 16 ^ (7 - i) % 16)) fun _ _ => idxOf_hexDigit (Nat.mod_lt _ (by decide))
  rwa [Nat.mod_eq_of_lt (by omega)] at hdigits

theorem hexText_mem {a : Nat} {c : Char} (h : c ∈ hexText a) : c ∈ "0123456789ABCDEF".toList := by
  obtain ⟨i, -, rfl⟩ := List.mem_map.1 h
  exact hexDigit_mem (Nat.mod_lt _ (by decide))

/-! ## The fields of a line (R171) -/

section
variable {sep : Char} {fields : List (List Char)} {rest : List Char} {i : Nat}

/-- A field that is not the last is followed by the separator and the fields after it. -/
theorem intercalate_drop_of_lt (hi : i + 1 < fields.length) :
    [sep].intercalate (fields.drop i) ++ rest =
      fields[i] ++ sep :: ([sep].intercalate (fields.drop (i + 1)) ++ rest) := by
  rw [List.drop_eq_getElem_cons (show i < fields.length by omega), List.drop_eq_getElem_cons hi,
    List.intercalate_cons_cons]
  simp

theorem intercalate_drop_last (hi : i + 1 = fields.length) :
    [sep].intercalate (fields.drop i) ++ rest = fields[i] ++ rest := by
  rw [List.drop_eq_getElem_cons (show i < fields.length by omega), List.drop_of_length_le (by omega)]
  simp

end

/-- From the start of the i-th field, a trace line goes on with the numeral of its i-th word. -/
theorem formatStep_field (t : TraceText) (l : TraceLine) {i : Nat} (hi : i < l.words.length) :
    ∃ tail, (formatStep t l).drop (i * (t.radixPrefix.length + 33)) = prefixedText t l.words[i] ++ tail ∧
      (i < 32 → tail.head? = some ' ') ∧ (i = 32 → tail = t.lineTrailing) := by
  have hlen : (l.words.map (prefixedText t)).length = l.words.length := List.length_map _
  have h33 := l.words_length
  have hdrop := drop_intercalate (sep := ' ') (n := t.radixPrefix.length + 32) (l.words.map (prefixedText t))
    t.lineTrailing i (by simp) (hlen.symm ▸ hi)
  rw [formatStep, hdrop]
  by_cases hlast : i < 32
  · rw [intercalate_drop_of_lt (by omega), List.getElem_map]
    exact ⟨_, rfl, fun _ => rfl, fun h => by omega⟩
  · rw [intercalate_drop_last (by omega), List.getElem_map]
    exact ⟨_, rfl, fun h => absurd h hlast, fun _ => rfl⟩

/-! ## The loader (R170) -/

theorem parseProgram_cons_of_blank {l : List Char} (h : isBlank l = true) (lines : List (List Char)) :
    parseProgram (l :: lines) = parseProgram lines := by
  rw [parseProgram, if_pos h]

theorem parseProgram_cons_of_malformed {l : List Char} (h : isBlank l = false) (hp : parseLine l = none)
    (lines : List (List Char)) : parseProgram (l :: lines) = none := by
  simp [parseProgram, h, hp]

theorem parseProgram_cons_of_word {l : List Char} {w : Word} (h : isBlank l = false) (hp : parseLine l = some w)
    (lines : List (List Char)) : parseProgram (l :: lines) = (parseProgram lines).map (w :: ·) := by
  cases hr : parseProgram lines <;> simp [parseProgram, h, hp, hr]

/-- R172: `boot` starts the launch of an admitted program, and nothing else. -/
theorem boot_ok_iff (lines : List (List Char)) (s : State) :
    boot lines = .ok s ↔ ∃ prog, parseProgram lines = some prog ∧ launchOk prog = true ∧ s = State.launch prog := by
  unfold boot
  cases parseProgram lines with
  | none => simp
  | some prog =>
    by_cases h0 : prog.length = 0
    · simp [h0, launchOk]
    by_cases hmax : maxProgramWords < prog.length
    · simp [h0, hmax, launchOk]
    · have hok : launchOk prog = true := decide_eq_true ⟨Nat.pos_of_ne_zero h0, Nat.not_lt.1 hmax⟩
      simp only [if_neg h0, if_neg hmax, Except.ok.injEq, Option.some.injEq, exists_eq_left', hok, true_and]
      exact eq_comm

/-! ## The two ends of a run -/

/-- Only a branch halts, and a branch writes nothing and reports nothing (R155, R243). -/
theorem effectOfDecoded_of_halt {d : Decoded} {s : State} (h : (effectOfDecoded d s).halt = true) :
    (effectOfDecoded d s).write = none ∧ s.reported d = s := by
  obtain ⟨rs1, rs2, ⟨rfl, -⟩ | ⟨rfl, -⟩ | ⟨rfl, -⟩⟩ := (effectOfDecoded_halt_iff d s).1 h
  · exact ⟨resolve_write _ _, rfl⟩
  · exact ⟨resolve_write _ _, rfl⟩
  · exact ⟨resolve_write _ _, rfl⟩

/-- Only exhaustion sets Exhausted (R45). -/
theorem eq_exhaust_of_exhausted {s t : State} (h : step s = .next t) (ht : t.status = .exhausted) :
    t = s.exhaust := by
  obtain ⟨hs, -, ⟨-, rfl⟩ | ⟨w, -, rfl⟩⟩ := step_exhausts_or_retires h
  · rfl
  · cases hh : (effectOfDecoded (decode w) s).halt <;> simp [State.retire_status, hh, hs] at ht

end Sys2Proof.Machine

namespace Sys2Proof.Safety

open Sys2Proof Sys2Proof.Machine

/-! ## The step -/

/-- Settles O40. -/
theorem stepRunsTheDecodedWord : Obligations.StepRunsTheDecodedWord := by
  intro s w ⟨hs, hl⟩ hf
  have hstep := step_of_fetch hs hl hf
  exact ⟨fun i hd => by rw [hstep, hd, execDecoded], fun v hd => by rw [hstep, hd, execDecoded]⟩

/-- Settles O41: the step is `State.exhaust`, which changes the status and the outputs only. -/
theorem aFetchThatFindsNothingEndsTheRun : Obligations.AFetchThatFindsNothingEndsTheRun := by
  intro s ⟨hs, hl⟩ hf
  refine ⟨s.exhaust, step_of_fetch_none hs hl hf, rfl, rfl, rfl, rfl, rfl, rfl, rfl, ?_, rfl⟩
  rw [State.exhaust, State.endOfRun_exhausted_trace, Word.wrap_uval_sub]

/-! ## The end of a run -/

/-- A halting effect without a register write is R155's halt. -/
theorem haltedAt_retire {e : Effect} (hwrite : e.write = none) (hhalt : e.halt = true) (s : State) :
    HaltedAt s (s.retire e) where
  data _ := by rw [State.retire_dmem]
  domain _ := by rw [State.retire_dmem]
  program := by rw [State.retire_imem]
  status := by rw [State.retire_status, if_pos hhalt]
  pc := by rw [State.retire_pc, if_pos hhalt]
  lastDelta := by rw [State.retire_lastDelta, if_pos hhalt]
  registers := {
    zero := by rw [State.retire_x, State.writeback_zero]
    others := fun r hr => by rw [State.retire_x, hwrite, State.writeback_none_reg, if_neg hr] }
  line := by rw [State.retire_trace, State.retire_x]
  report := by rw [State.retire_report]
  dump := by rw [State.retire_dump, if_pos hhalt]

/-- A decoded word whose effect halts is R155's halt. -/
theorem haltedAt_retire_decoded {d : Decoded} {s : State} (hhalt : (effectOfDecoded d s).halt = true) :
    HaltedAt s ((s.reported d).retire (effectOfDecoded d s)) := by
  obtain ⟨hwrite, hreported⟩ := effectOfDecoded_of_halt hhalt
  rw [hreported]
  exact haltedAt_retire hwrite hhalt s

/-- Settles O42: the halt idiom is exactly the effect that halts, and that effect writes nothing. -/
theorem theHaltingStepChangesNothing : Obligations.TheHaltingStepChangesNothing := by
  refine ⟨fun s t h ht => ?_, fun s ⟨hs, hl⟩ hidiom => ?_⟩
  · obtain ⟨-, hhalted, -⟩ := theStatusChangesOnlyAsTheRunEnds.2 s t h
    have hidiom := hhalted.1 ht
    obtain ⟨-, -, ⟨hf, -⟩ | ⟨w, hf, rfl⟩⟩ := step_exhausts_or_retires h
    · exact absurd hidiom (not_haltIdiom_of_fetch_none hf)
    · exact ⟨hidiom, haltedAt_retire_decoded ((haltIdiom_iff hf).1 hidiom)⟩
  · have ⟨w, _, _, hf, _⟩ := hidiom
    exact ⟨_, step_eq_retire hs hl hf, haltedAt_retire_decoded ((haltIdiom_iff hf).1 hidiom)⟩

/-- Settles O43: the halting step's frame, and the exhausted step. -/
theorem theFinalLineOfBothExits : Obligations.TheFinalLineOfBothExits := by
  intro s t h
  refine ⟨fun ht => ?_, fun ht => ?_⟩
  · obtain ⟨-, hhalted⟩ := theHaltingStepChangesNothing.1 s t h ht
    exact ⟨_, hhalted.line, rfl, hhalted.pc.symm, hhalted.pc⟩
  · obtain rfl := eq_exhaust_of_exhausted h ht
    exact ⟨_, State.endOfRun_exhausted_trace s, rfl, Word.wrap_uval_sub _ _, rfl⟩

/-- Settles O44: the final line is, by the invariant, the last recorded one. -/
theorem exhaustionRepeatsTheLastLine : Obligations.ExhaustionRepeatsTheLastLine := by
  intro s t hinv htrace h ht
  obtain ⟨hs, -, -⟩ := step_exhausts_or_retires h
  obtain rfl := eq_exhaust_of_exhausted h ht
  rcases hinv.lastLine hs with ⟨hnil, -⟩ | hlast
  · exact absurd hnil htrace
  · exact ⟨_, hlast, State.endOfRun_exhausted_trace s⟩

/-! ## The dump (R158) -/

/-- The step that ends the run outputs DMEM's cells. -/
theorem dump_of_ended {s t : State} (h : step s = .next t) (ht : Ended t) : t.dump = some t.dmem.cells := by
  rcases ht with ht | ht
  · obtain ⟨-, hhalted⟩ := theHaltingStepChangesNothing.1 s t h ht
    rw [hhalted.dump, (step_keeps_memories h).1]
  · obtain rfl := eq_exhaust_of_exhausted h ht
    rfl

/-- The invariant holds all along a run. -/
theorem Inv.run {k : Nat} {s t : State} (hinv : Inv s) (h : run k s = .next t) : Inv t := by
  induction k generalizing s with
  | zero => cases h; exact hinv
  | succ k ih =>
    obtain ⟨u, hstep, hrun⟩ := run_succ_next h
    exact ih (everyStepKeepsTheInvariant s u hinv hstep) hrun

theorem Ended.not_running {t : State} (h : Ended t) : t.status ≠ .running := by
  rcases h with h | h <;> simp [h]

/-- Settles O45: the dump lists DMEM's cells, which no step changes; of a launch they are the reset cells. -/
theorem theDumpListsEveryMappedWordOnce : Obligations.TheDumpListsEveryMappedWordOnce := by
  refine ⟨fun s t hwf h ht => ?_, fun prog k t h ht => ?_⟩
  · rw [← (step_keeps_memories h).1] at hwf
    obtain ⟨hasc, hbound⟩ := t.dmem.wf_iff.1 hwf
    exact ⟨_, dump_of_ended h ht, (ascending_iff_pairwise _).1 hasc,
      fun a v => (lookupCell_some_iff hasc a.toNat v).symm, hbound⟩
  · have hinv : Inv t := (aLaunchStartsInTheInvariant prog).run h
    rw [hinv.dump, if_neg ht.not_running, (run_keeps_memories h).1]
    rfl

/-! ## The launch (R170, R172) -/

/-- Settles O49: `launchOk` is R172's condition, of the loader and of the step. -/
theorem onlyAdmittedLaunchesRun : Obligations.OnlyAdmittedLaunchesRun := by
  refine ⟨fun lines s => ?_, fun s hs hl => ?_⟩
  · simp only [boot_ok_iff, launchOk_iff, and_assoc]
  · exact step_of_not_launchOk hs (mt (launchOk_iff s.imem).1 hl)

/-- Settles O50. -/
theorem parsingABinaryLineGivesItsWord : Obligations.ParsingABinaryLineGivesItsWord := fun w =>
  ⟨parseLine_binaryText w, isBlank_of_isBinaryLine (isBinaryLine_binaryText w), binaryText_length w⟩

/-- Settles O51, by induction on the lines. -/
theorem theLoaderSkipsBlankLinesAndFailsFast : Obligations.TheLoaderSkipsBlankLinesAndFailsFast := by
  intro lines
  induction lines with
  | nil => simp [parseProgram]
  | cons l lines ih =>
    cases hb : isBlank l with
    | true => simp [parseProgram_cons_of_blank hb, ih, hb]
    | false =>
      cases hp : parseLine l with
      | none => simp [parseProgram_cons_of_malformed hb hp, hb, hp]
      | some w =>
        simp [parseProgram_cons_of_word hb hp, ih, hb, hp, apply_ite (Option.map (w :: ·))]

/-! ## The text of the trace file (R171) -/

/-- Settles O52: a line's fields stand at equal distances, and each numeral reads back. -/
theorem traceTextHasFixedWidthNumerals : Obligations.TraceTextHasFixedWidthNumerals := by
  refine ⟨fun t l => ⟨fun i hi => ?_, fun i hi => ?_, ?_⟩, fun a ha => ?_, fun t a w => ?_⟩
  · have hi' : i < l.words.length := by rwa [l.words_length]
    obtain ⟨tail, hfield, -⟩ := formatStep_field t l hi'
    refine ⟨binaryText l.words[i], ?_, binaryText_length _, ?_⟩
    · rw [hfield, List.take_left' (prefixedText_length t _)]
      rfl
    · exact (parseLine_binaryText _).trans (List.getElem?_eq_getElem hi').symm
  · obtain ⟨tail, hfield, hspace, -⟩ := formatStep_field t l (i := i) (by rw [l.words_length]; omega)
    rw [← List.getElem?_drop, hfield, List.getElem?_append_right (by simp), prefixedText_length, Nat.sub_self,
      ← List.head?_eq_getElem?, hspace hi]
  · obtain ⟨tail, hfield, -, htail⟩ := formatStep_field t l (i := 32) (by simp)
    rw [← List.drop_drop, hfield, List.drop_left' (prefixedText_length t _), htail rfl]
  · exact ⟨hexText_length a, fun c => hexText_mem, foldl_hexText ha⟩
  · exact ⟨binaryText w, binaryText_length w, parseLine_binaryText w, rfl⟩

end Sys2Proof.Safety

/-! PROOFS. The statements of 41_register_register.md. First the shift of `srl` under the readings of P_SRL_SHAMT;
then the frame of an effect that writes a register and goes on; then each statement from them. -/

namespace Sys2Proof.Machine

/-! ## The shift of `srl` (R204) -/

/-- Below 32 the reading of P_SRL_SHAMT makes no difference. -/
theorem srlAmount_of_lt (p : SrlShamt) {b : Word} (h : b.toNat < 32) : srlAmount p b = b.toNat := by
  cases p with
  | mask5 => rw [srlAmount_mask5, Nat.mod_eq_of_lt h]
  | full => rfl

theorem srlAmount_mask5_add_32 (b : Word) : srlAmount .mask5 (b + 32) = srlAmount .mask5 b := by
  have hmod : (b.toNat + 32) % 2 ^ 32 % 32 = b.toNat % 32 := by omega
  rw [srlAmount_mask5, srlAmount_mask5, BitVec.toNat_add]
  exact hmod

theorem aluSrl_congr {p q : SrlShamt} {b c : Word} (h : srlAmount p b = srlAmount q c) (a : Word) :
    aluSrl p a b = aluSrl q a c :=
  congrArg (a >>> ·) h

theorem aluSrl_full_of_le (a : Word) {b : Word} (h : 32 ≤ b.toNat) : aluSrl .full a b = 0 :=
  BitVec.ushiftRight_eq_zero h

theorem aluSrl_eq_ofNat (p : SrlShamt) (a b : Word) :
    aluSrl p a b = BitVec.ofNat 32 (a.toNat / 2 ^ srlAmount p b) := by
  rw [← aluSrl_toNat, BitVec.ofNat_toNat, BitVec.setWidth_eq]

end Sys2Proof.Machine

namespace Sys2Proof.Safety

open Sys2Proof Sys2Proof.Machine

/-! ## The frame of an effect that goes on (R33, R34, R156) -/

theorem wroteOnly_retire {e : Effect} {rd : Reg} {v : Word} (hwrite : e.write = some (rd, v)) (s : State) :
    WroteOnly s (s.retire e) rd v where
  dest hrd := by rw [State.retire_x, hwrite, State.writeback_some_reg, if_neg hrd, if_pos rfl]
  zero := by rw [State.retire_x, State.writeback_zero]
  others r hne hr := by rw [State.retire_x, hwrite, State.writeback_some_reg, if_neg hr, if_neg hne]

theorem wentOn_retire {e : Effect} (hgoes : e.halt ≠ true) (s : State) : WentOn s (s.retire e) e.delta where
  data _ := by rw [State.retire_dmem]
  domain _ := by rw [State.retire_dmem]
  program := by rw [State.retire_imem]
  line := by rw [State.retire_trace, State.retire_x]
  lastDelta := by rw [State.retire_lastDelta, if_neg hgoes]
  status := by rw [State.retire_status, if_neg hgoes]
  report := by rw [State.retire_report]
  dump := by rw [State.retire_dump, if_neg hgoes]

/-- R200: an instruction whose effect is the result `v` for rd completes, writes only rd, and goes on with delta 4. -/
theorem exec_of_result {i : Instr} {s : State} {rd : Reg} {v : Word} (h : effectOf i s = .result rd v) :
    ∃ t, exec i s = .next t ∧ WroteOnly s t rd v ∧ WentOn s t 4 := by
  refine ⟨s.retire (.result rd v), ?_, wroteOnly_retire rfl s, wentOn_retire Bool.false_ne_true s⟩
  rw [exec_eq_retire, h]

/-! ## The register-register instructions -/

/-- Settles O27: an amount below 32 is the same under both readings, and Mask5's amount has period 32. -/
theorem srlReadingsAgreeBelow32 : Obligations.SrlReadingsAgreeBelow32 := by
  intro a b
  refine ⟨fun hlt => ⟨?_, ?_⟩, aluSrl_full_of_le a, aluSrl_congr (srlAmount_mask5_add_32 b) a⟩
  · have hagree : srlAmount .mask5 b = srlAmount .full b := srlAmount_of_lt .mask5 hlt
    exact aluSrl_congr hagree a
  · rw [aluSrl_toNat, srlAmount_of_lt _ hlt]

/-- Settles O23. -/
theorem addWritesTheWrappedSum : Obligations.AddWritesTheWrappedSum := fun s rd rs1 rs2 =>
  exec_of_result (congrArg (Effect.result rd) (aluAdd_eq s.x[rs1.val] s.x[rs2.val]))

/-- Settles O24. -/
theorem subWritesTheWrappedDifference : Obligations.SubWritesTheWrappedDifference := fun s rd rs1 rs2 =>
  exec_of_result (congrArg (Effect.result rd) (aluSub_eq s.x[rs1.val] s.x[rs2.val]))

/-- Settles O25. -/
theorem sltWritesTheSignedComparison : Obligations.SltWritesTheSignedComparison := fun s rd rs1 rs2 =>
  exec_of_result (congrArg (Effect.result rd) (aluSlt_eq s.x[rs1.val] s.x[rs2.val]))

/-- Settles O26, for each value P_SRL_SHAMT may have. -/
theorem srlWritesTheLogicalShift : Obligations.SrlWritesTheLogicalShift := by
  intro s rd rs1 rs2
  refine exec_of_result (congrArg (Effect.result rd) ?_)
  rw [State.readReg, State.readReg, aluSrl_eq_ofNat]
  cases Config.srlShamt with
  | mask5 => rw [srlAmount_mask5]
  | full => rw [srlAmount_full]

/-- Settles O28. -/
theorem orWritesTheBitwiseOr : Obligations.OrWritesTheBitwiseOr := by
  intro s rd rs1 rs2
  obtain ⟨t, hexec, hframe⟩ := exec_of_result (i := .or rd rs1 rs2) (s := s) rfl
  exact ⟨t, _, hexec, fun _ _ => BitVec.getLsbD_or, hframe⟩

/-- Settles O29. -/
theorem andWritesTheBitwiseAnd : Obligations.AndWritesTheBitwiseAnd := by
  intro s rd rs1 rs2
  obtain ⟨t, hexec, hframe⟩ := exec_of_result (i := .and rd rs1 rs2) (s := s) rfl
  exact ⟨t, _, hexec, fun _ _ => BitVec.getLsbD_and, hframe⟩

end Sys2Proof.Safety

/-! PROOFS. The statements of 42_immediate_load_jalr.md. First base plus offset and the target of `jalr` as word
arithmetic; then the frame of an effect that writes a register and moves the pc by any delta; then each statement from
them. -/

namespace Sys2Proof.Machine

/-! ## Base plus offset and the target of `jalr` (R222, R223) -/

theorem State.basePlusOffset_eq (s : State) (rs1 : Reg) (imm : Int) :
    s.basePlusOffset rs1 imm = s.x[rs1.val] + BitVec.ofInt 32 imm := Word.wrap_uval_add _ imm

/-- The mask of `jalr` keeps the upper 31 bits. -/
theorem clearBitZero_half (v : Word) : (v &&& 0xFFFFFFFE#32).toNat / 2 = v.toNat / 2 := by
  have hlt : v.toNat / 2 < 2 ^ 31 := by have := v.isLt; omega
  rw [BitVec.toNat_and, Nat.and_div_two]
  exact (Nat.and_two_pow_sub_one_eq_mod _ 31).trans (Nat.mod_eq_of_lt hlt)

/-- The target is the sum rounded down to an even address. -/
theorem State.jalrTarget_toNat (s : State) (rs1 : Reg) (imm : Int) :
    (s.jalrTarget rs1 imm).toNat = 2 * ((s.x[rs1.val] + BitVec.ofInt 32 imm).toNat / 2) := by
  have heven := jalrTarget_even s rs1 imm
  have hhalf : (s.jalrTarget rs1 imm).toNat / 2 = (s.x[rs1.val] + BitVec.ofInt 32 imm).toNat / 2 := by
    rw [State.jalrTarget, State.basePlusOffset_eq, clearBitZero_half]
  omega

end Sys2Proof.Machine

namespace Sys2Proof.Safety

open Sys2Proof Sys2Proof.Machine

/-! ## A register write with a delta (R154, R156) -/

/-- An instruction whose effect is the write of `v` to rd and a delta, without a halt, completes, writes only rd, and
goes on with that delta. -/
theorem exec_of_write {i : Instr} {s : State} {rd : Reg} {v : Word} {delta : Int}
    (h : effectOf i s = ⟨some (rd, v), delta, false⟩) :
    ∃ t, exec i s = .next t ∧ WroteOnly s t rd v ∧ WentOn s t delta := by
  refine ⟨s.retire ⟨some (rd, v), delta, false⟩, ?_, wroteOnly_retire rfl s, wentOn_retire Bool.false_ne_true s⟩
  rw [exec_eq_retire, h]

/-! ## `addi`, `lw` and `jalr` -/

/-- Settles O30. -/
theorem addiWritesTheWrappedSum : Obligations.AddiWritesTheWrappedSum := fun s rd rs1 imm =>
  exec_of_result (congrArg (Effect.result rd) (Word.wrap_uval_add s.x[rs1.val] imm))

/-- Settles O31, by whether the address is mapped. -/
theorem lwLoadsTheWordOrZero : Obligations.LwLoadsTheWordOrZero := by
  intro s rd rs1 imm
  refine exec_of_result (congrArg (Effect.result rd) ?_)
  rw [State.basePlusOffset_eq]
  cases h : s.dmem.lookup (s.x[rs1.val] + BitVec.ofInt 32 imm) with
  | some v => exact Memory.read_of_lookup_some h
  | none => exact Memory.read_of_lookup_none h

/-- Settles O32: EXECUTE computes the link and the delta from the state before the write. -/
theorem jalrLinksAndAnswersTheDeltaToTheTarget : Obligations.JalrLinksAndAnswersTheDeltaToTheTarget := by
  intro s rd rs1 imm
  refine exec_of_write ?_
  rw [effectOf, linkValue_eq, State.deltaTo, Word.uval, Word.uval, State.jalrTarget_toNat]

end Sys2Proof.Safety

/-! PROOFS. The statements of 43_branch.md. First the target of `jalr` and where an effect that goes on moves the pc;
then R243's three answers of a branch on any condition; then each statement from them. -/

namespace Sys2Proof.Machine

/-! ## The pc of a control transfer (R222, R244, R260) -/

/-- Clearing bit 0 takes bit 0 away. -/
theorem State.jalrTarget_eq_sub (s : State) (rs1 : Reg) (imm : Int) :
    s.jalrTarget rs1 imm = (s.x[rs1.val] + BitVec.ofInt 32 imm) - ((s.x[rs1.val] + BitVec.ofInt 32 imm) &&& 1) := by
  have htarget := s.jalrTarget_toNat rs1 imm
  have hbit : ((s.x[rs1.val] + BitVec.ofInt 32 imm) &&& 1).toNat = (s.x[rs1.val] + BitVec.ofInt 32 imm).toNat % 2 := by
    rw [BitVec.toNat_and]
    exact Nat.and_one_is_mod _
  generalize s.x[rs1.val] + BitVec.ofInt 32 imm = sum at htarget hbit ⊢
  bv_omega

/-- The delta to a target moves the pc there. -/
theorem State.pc_add_deltaTo (s : State) (target : Word) : s.pc + BitVec.ofInt 32 (s.deltaTo target) = target := by
  rw [← Word.wrap_uval_add, State.deltaTo, add_sub_cancel, Word.wrap, Word.ofInt_uval]

/-- An instruction whose effect does not halt completes with the pc moved by its delta. -/
theorem exec_pc_of_goOn {i : Instr} {s : State} {write : Option (Reg × Word)} {delta : Int}
    (h : effectOf i s = ⟨write, delta, false⟩) :
    ∃ t, exec i s = .next t ∧ t.pc = s.pc + BitVec.ofInt 32 delta :=
  ⟨_, exec_eq_retire i s, by rw [h, State.retire_pc, if_neg Bool.false_ne_true, Word.wrap_uval_add]⟩

end Sys2Proof.Machine

namespace Sys2Proof.Safety

open Sys2Proof Sys2Proof.Machine

/-! ## The three answers of a branch (R243) -/

/-- An effect without a register write only forces x0 (R33, R34). -/
theorem wroteNone_retire {e : Effect} (hwrite : e.write = none) (s : State) : WroteNone s (s.retire e) where
  zero := by rw [State.retire_x, State.writeback_zero]
  others r hr := by rw [State.retire_x, hwrite, State.writeback_none_reg, if_neg hr]

/-- An instruction whose effect is a delta alone completes, writes no register, and goes on with that delta. -/
theorem exec_of_delta {i : Instr} {s : State} {delta : Int} (h : effectOf i s = ⟨none, delta, false⟩) :
    ∃ t, exec i s = .next t ∧ WroteNone s t ∧ WentOn s t delta := by
  refine ⟨s.retire ⟨none, delta, false⟩, ?_, wroteNone_retire rfl s, wentOn_retire Bool.false_ne_true s⟩
  rw [exec_eq_retire, h]

section Branch

variable {i : Instr} {s : State} {cond : Prop} [Decidable cond] {imm : Int}

/-- The effect of a branch that is taken. -/
theorem effectOf_taken (h : effectOf i s = resolve (decide cond) imm) (hcond : cond) (himm : imm ≠ 0) :
    effectOf i s = ⟨none, imm, false⟩ := by
  rw [h, decide_eq_true hcond, resolve_taken himm]

/-- `exec` of an instruction that resolves a condition: it falls through, is taken, or halts. -/
theorem exec_of_resolve (h : effectOf i s = resolve (decide cond) imm) :
    (¬ cond → ∃ t, exec i s = .next t ∧ WroteNone s t ∧ WentOn s t 4) ∧
    (cond → imm ≠ 0 → ∃ t, exec i s = .next t ∧ WroteNone s t ∧ WentOn s t imm) ∧
    (cond → imm = 0 → ∃ t, exec i s = .next t ∧ HaltedAt s t) := by
  refine ⟨fun hcond => ?fallsThrough, fun hcond himm => ?taken, fun hcond himm => ?halts⟩
  case fallsThrough => exact exec_of_delta (by rw [h, decide_eq_false hcond, resolve_false])
  case taken => exact exec_of_delta (effectOf_taken h hcond himm)
  case halts =>
    have hhalt : (effectOf i s).halt = true := by rw [h, resolve_halts_iff]; exact ⟨decide_eq_true hcond, himm⟩
    have hwrite : (effectOf i s).write = none := by rw [h, resolve_write]
    exact ⟨_, exec_eq_retire i s, haltedAt_retire hwrite hhalt s⟩

end Branch

/-- `blt` resolves the signed comparison (R242). -/
theorem effectOf_blt (s : State) (rs1 rs2 : Reg) (imm : Int) :
    effectOf (.blt rs1 rs2 imm) s = resolve (decide (s.x[rs1.val].toInt < s.x[rs2.val].toInt)) imm := by
  rw [← condLt_eq]
  rfl

/-! ## The branches and the targets -/

/-- Settles O34. -/
theorem beqBranchesOnEqual : Obligations.BeqBranchesOnEqual := fun s rs1 rs2 _ =>
  exec_of_resolve (cond := s.x[rs1.val] = s.x[rs2.val]) rfl

/-- Settles O35. -/
theorem bneBranchesOnNotEqual : Obligations.BneBranchesOnNotEqual := by
  intro s rs1 rs2 imm
  obtain ⟨hfallsThrough, htakenOrHalts⟩ :=
    exec_of_resolve (i := .bne rs1 rs2 imm) (cond := s.x[rs1.val] ≠ s.x[rs2.val]) rfl
  exact ⟨fun heq => hfallsThrough (not_not.2 heq), htakenOrHalts⟩

/-- Settles O36. -/
theorem bltBranchesOnSignedLess : Obligations.BltBranchesOnSignedLess := fun s rs1 rs2 imm =>
  exec_of_resolve (effectOf_blt s rs1 rs2 imm)

/-- Settles O21: the delta of `jal` and of a taken branch is the immediate, and that of `jalr` ends at its target. -/
theorem controlTransfersReachTheirTargets : Obligations.ControlTransfersReachTheirTargets := by
  intro s rd rs1 rs2 imm
  refine ⟨?jal, ?jalr, fun himm heq => ?beq, fun himm hne => ?bne, fun himm hlt => ?blt⟩
  case jal => exact exec_pc_of_goOn rfl
  case jalr =>
    obtain ⟨t, hexec, hpc⟩ := exec_pc_of_goOn (i := .jalr rd rs1 imm) (s := s) rfl
    exact ⟨t, hexec, by rw [hpc, State.pc_add_deltaTo, State.jalrTarget_eq_sub]⟩
  case beq => exact exec_pc_of_goOn (effectOf_taken (i := .beq rs1 rs2 imm) rfl heq himm)
  case bne => exact exec_pc_of_goOn (effectOf_taken (i := .bne rs1 rs2 imm) rfl hne himm)
  case blt => exact exec_pc_of_goOn (effectOf_taken (effectOf_blt s rs1 rs2 imm) hlt himm)

end Sys2Proof.Safety

/-! PROOFS. The statement of 44_jal.md, by whether `jal` has a link register or discards the link. -/

namespace Sys2Proof.Safety

open Sys2Proof Sys2Proof.Machine

/-- Writing no register is the same as writing only x0, which keeps 0 (R33). -/
theorem wroteOnly_zero_iff {s t : State} {v : Word} : WroteOnly s t 0 v ↔ WroteNone s t :=
  ⟨fun h => ⟨h.zero, fun r hr => h.others r hr hr⟩,
    fun h => ⟨fun hne => absurd rfl hne, h.zero, fun r hr _ => h.others r hr⟩⟩

/-- Settles O33, by whether rd is x0. -/
theorem jalLinksAndAnswersItsImmediate : Obligations.JalLinksAndAnswersItsImmediate := by
  intro s rd imm
  by_cases hrd : rd = 0
  · subst hrd
    simp only [wroteOnly_zero_iff]
    exact exec_of_delta rfl
  · refine exec_of_write ?_
    rw [effectOf, if_neg hrd, linkValue_eq]

end Sys2Proof.Safety

/-! PROOFS. The statements of 60_exceptions.md: every admitted step completes, and an unsupported word is a reported
no-op. -/

namespace Sys2Proof.Safety

open Sys2Proof Sys2Proof.Machine

/-! ## No trap (R300, R302) -/

/-- Settles O48, by what the fetch finds: nothing ends the run (R151), and every word retires its effect. -/
theorem everyAdmittedStepCompletes : Obligations.EveryAdmittedStepCompletes := by
  intro s ⟨hs, hl⟩
  cases hf : s.fetch with
  | none => exact ⟨s.exhaust, step_of_fetch_none hs hl hf⟩
  | some w => exact ⟨_, step_eq_retire hs hl hf⟩

/-! ## The unsupported word (R301) -/

/-- Settles O37: the word retires a delta of 4 alone, from a state that differs from `s` in the report only. -/
theorem unsupportedWordsAreReportedNoOps : Obligations.UnsupportedWordsAreReportedNoOps := by
  intro s w
  obtain ⟨hzero, hothers⟩ := wroteNone_retire (e := ⟨none, 4, false⟩) rfl (s.raiseUnsupported w)
  obtain ⟨⟨hdata, hdomain, hprogram⟩, hline, hdelta, hstatus, hreport, hdump⟩ :=
    wentOn_retire (e := ⟨none, 4, false⟩) Bool.false_ne_true (s.raiseUnsupported w)
  exact ⟨_, execUnsupported_eq_retire w s, ⟨hzero, hothers⟩, ⟨hdata, hdomain, hprogram⟩,
    hline, hdelta, hstatus, hdump, ⟨s.pc, w⟩, hreport⟩

end Sys2Proof.Safety

/-! PROOFS. The statement of what the unsupported-instruction report holds (D8). -/

namespace Sys2Proof

open Safety

/-- A word that is not supported is handed on as it stands (R114): a row of the table would have made it an
instruction, and without one the decoder answers the word itself. -/
theorem eq_of_decode_unsupported {w v : Word} (h : decode w = .unsupported v) : v = w := by
  by_cases hrow : ∃ r ∈ maskRows, r.Selects w
  · obtain ⟨r, hr, hsel⟩ := hrow
    rw [decode_of_selects hr hsel] at h
    cases h
  · rw [decode_of_no_row fun r hr hsel => hrow ⟨r, hr, hsel⟩] at h
    exact (Decoded.unsupported.inj h).symm

end Sys2Proof

namespace Sys2Proof.Machine

/-- The report log after EXECUTE of a word, by what the decoder answers for it (R301, D8). -/
theorem State.reported_decode_report (s : State) (w : Word) :
    (s.reported (decode w)).report =
      if decode w = .unsupported w then s.report ++ [⟨s.pc, w⟩] else s.report := by
  cases hd : decode w with
  | instr i => simp [State.reported]
  | unsupported v =>
    obtain rfl := eq_of_decode_unsupported hd
    simp [State.reported]

end Sys2Proof.Machine

namespace Sys2Proof.Safety

open Sys2Proof Sys2Proof.Machine

/-- Settles O38: a step that fetched `w` retires an effect, which leaves the log as the report of `w` made it. -/
theorem theReportHoldsThePcAndTheWord : Obligations.TheReportHoldsThePcAndTheWord := by
  intro s t w hf hstep
  obtain ⟨-, -, ⟨hnone, -⟩ | ⟨v, hv, rfl⟩⟩ := step_exhausts_or_retires hstep
  · rw [hf] at hnone
    cases hnone
  · obtain rfl : w = v := Option.some.inj (hf.symm.trans hv)
    rw [State.retire_report, State.reported_decode_report]

end Sys2Proof.Safety
